-- ==== Sys2Proof/Word.lean ====
section
/-! DEFINITION. The two units of data of the block: the byte and the 9-bit word (00_scope.md R8, 30_encoding.md R70, R75).
The fields of a word are read in Sys2Proof/Decode.lean. -/

namespace Sys2Proof

/-- A byte, unsigned (R8). -/
abbrev Byte := BitVec 8

/-- A received or transmitted word: bit 8 the mode flag, bits 7:0 the data byte (R8, R70, R75). -/
abbrev Word9 := BitVec 9

end Sys2Proof
end

