-- ==== Sys2Proof/Config.lean ====
section
/-! DEFINITION. The parameters of 00_scope.md R7 and the handler functions of 45_control.md R152: what a step takes
beside the state and the input event. -/

namespace Sys2Proof

/-- `CHK_FAIL_POLICY` (R7, R167): what is sent on a checksum mismatch. -/
inductive ChkFailPolicy where
  | silent
  | nack
  deriving DecidableEq, Repr

/-- What a `REGISTER` outside Idle does. `refuse` is what R106 asks of a model; `perform` is the fallback R106 gives
an implementer who must do something. DESIGN CHOICE, log 10: the model's own parameter, not one of R7's. -/
inductive RegisterPolicy where
  | refuse
  | perform
  deriving DecidableEq, Repr

/-- The parameter record of R7. `ADDR_W`, `N_CMD` and `LEN_W` are derived below. -/
structure Config where
  /-- `CMD_W`: width in bits of the command field of an address word. -/
  cmdW : Nat
  /-- `DEV_ADDR`: the configured peripheral address. -/
  devAddr : Nat
  /-- `N_SUB`: subcommand slots per command. -/
  nSub : Nat
  /-- `RX_CAP`: bytes of the receive buffer. -/
  rxCap : Nat
  /-- `TX_CAP`: bytes of the transmit buffer. -/
  txCap : Nat
  /-- `HID_W`: width of a handler reference. -/
  hidW : Nat
  /-- `ACK_CODE`. -/
  ackCode : Byte
  /-- `NACK_CODE`. -/
  nackCode : Byte
  /-- `NEG_SENTINEL`. -/
  negSentinel : Byte
  /-- `CHK_FAIL_POLICY`. -/
  chkFailPolicy : ChkFailPolicy
  /-- The model's own (log 10). -/
  registerPolicy : RegisterPolicy
  deriving DecidableEq, Repr

/-- `ADDR_W = 8 - CMD_W` (R7). -/
def Config.addrW (c : Config) : Nat := 8 - c.cmdW

/-- `N_CMD = 2^CMD_W` (R7). -/
def Config.nCmd (c : Config) : Nat := 2 ^ c.cmdW

/-- The legal values of R7. That `NEG_SENTINEL` "should not be 0x00" is advice there and no condition here. -/
abbrev Config.Legal (c : Config) : Prop :=
  (1 ≤ c.cmdW ∧ c.cmdW ≤ 7) ∧ c.devAddr < 2 ^ c.addrW ∧ (1 ≤ c.nSub ∧ c.nSub ≤ 256) ∧
    (1 ≤ c.rxCap ∧ c.rxCap ≤ 255) ∧ (1 ≤ c.txCap ∧ c.txCap ≤ 255) ∧ 1 ≤ c.hidW ∧ c.nackCode ≠ c.ackCode

/-- The defaults of R7 with the test vectors' `DEV_ADDR = 0x1` (95_test_vectors.md). DESIGN CHOICE, log 2 and 3: the
configuration `State.reset` carries; `DEV_ADDR` has no default of the spec's. -/
def Config.vectors : Config where
  cmdW := 4
  devAddr := 1
  nSub := 256
  rxCap := 36
  txCap := 36
  hidW := 8
  ackCode := 0x00
  nackCode := 0xFF
  negSentinel := 0xFF
  chkFailPolicy := .silent
  registerPolicy := .refuse

/-- One handler invocation: what `CALL` records and what a handler is given (R132, R152). -/
structure HandlerCall where
  handler : Nat
  cmd : Nat
  sub : Option Byte
  /-- The whole receive buffer, `RX_CAP` bytes. -/
  rx : List Byte
  /-- The payload length `n`. -/
  n : Nat
  deriving DecidableEq, Repr

/-- What a handler returns: the count `N` and the content of its output buffer (R133, R152). -/
structure HandlerResult where
  count : Nat
  out : List Byte
  deriving DecidableEq, Repr, Inhabited

/-- `Handlers` of R152, total and dependent on its inputs alone. A free value (log 6): no body, so nothing can be
proved of what a handler answers; rows of `State.handlers` fix finitely many points of it. -/
opaque Config.handlers : HandlerCall → HandlerResult

end Sys2Proof
end

