-- ==== Sys2Proof/Syntax.lean ====
section
/-! DEFINITION. The operations of the block, one constructor per row of spec/opcode_table.json (30_encoding.md R83),
the four states of the framer, and the input events (00_scope.md R6). -/

namespace Sys2Proof

/-- `ctx.state` (10_state.md R26). -/
inductive FsmState where
  | idle
  | receivingData
  | expectingChecksum
  | waitingAck
  deriving DecidableEq, Repr

/-- The 2-bit numbering of R26 (D16); no rule depends on it. -/
def FsmState.code : FsmState → BitVec 2
  | .idle => 0
  | .receivingData => 1
  | .expectingChecksum => 2
  | .waitingAck => 3

/-- The operations. Command codes and handler references are natural numbers bounded in Sys2Proof/WellFormed.lean by
the widths `CMD_W` and `HID_W` of the configuration. -/
inductive Instr where
  /-- `ADDR.CMD` (R112): the command field. -/
  | addrCmd (c : Nat)
  /-- `ADDR.OTHER` (R113): the address field and the command field, neither of which has an effect. -/
  | addrOther (addr low : Nat)
  /-- `DATA` (R114). -/
  | data (b : Byte)
  /-- `CHK` (R118). -/
  | chk (k : Byte)
  /-- `DATA.IGN` (R119): the data byte, which has no effect. -/
  | dataIgn (b : Byte)
  /-- `TX.DATA` (R141). -/
  | txData (b : Byte)
  /-- `TX.CHK` (R142). -/
  | txChk (k : Byte)
  /-- `TX.ACK` (R143). -/
  | txAck
  /-- `TX.NACK` (R144). -/
  | txNack
  /-- `REGISTER.SUB` (R100). -/
  | registerSub (c : Nat) (s : Byte) (len : Byte) (h : Option Nat)
  /-- `REGISTER.NOSUB` (R101). -/
  | registerNosub (c : Nat) (len : Byte) (h : Option Nat)
  /-- `LOOKUP` (R104). -/
  | lookup (c : Nat) (s : Option Byte)
  /-- `CTX.RESET` (R150). -/
  | ctxReset
  /-- `HW.RESET` (R151). -/
  | hwReset
  /-- `CHK8` (R90). -/
  | chk8 (bytes : List Byte)
  /-- `CHK.ADD` (R91). -/
  | chkAdd (acc b : Byte)
  /-- `CHK.VERIFY` (R92). -/
  | chkVerify (acc k : Byte)
  /-- `DISPATCH` (R131). -/
  | dispatch
  /-- `TRANSMIT` (R140). -/
  | transmit (n : Nat)
  deriving DecidableEq, Repr

/-- The input events of R6. `RXWORD` carries the value the transport hands over, which may be wider than a word
(R70). -/
inductive InputEvent where
  | hwReset
  | ctxReset
  | register (c : Nat) (s : Option Byte) (len : Byte) (h : Option Nat)
  | rxWord (carrier : Nat)
  deriving DecidableEq, Repr

/-- The operands of one `REGISTER` strobe (R82). -/
structure RegisterRequest where
  c : Nat
  s : Option Byte
  len : Byte
  h : Option Nat
  deriving DecidableEq, Repr

/-- Strobes raised at the same instant in a signal-level design (R155). -/
structure Strobes where
  hwReset : Bool
  ctxReset : Bool
  register : Option RegisterRequest
  rxWord : Option Nat
  deriving DecidableEq, Repr

end Sys2Proof
end

