-- ==== Sys2Proof/WellFormed.lean ====
section
/-! DEFINITION. Which terms of `Instr` are operations of a framer configured by `cfg`: the operand ranges of
30_encoding.md R71, R72, R82, 41_registry.md R103 and 44_transmitter.md R140. -/

namespace Sys2Proof

/-- A handler reference fits `HID_W` bits (R82). -/
def handlerFits (cfg : Config) : Option Nat → Bool
  | none => true
  | some h => decide (h < 2 ^ cfg.hidW)

/-- The operand checks. A subcommand of `REGISTER.SUB` at or above `N_SUB` passes: R103 says what that
registration does. -/
def Instr.wf (cfg : Config) : Instr → Bool
  | .addrCmd c => decide (c < cfg.nCmd)
  | .addrOther addr low => decide (addr < 2 ^ cfg.addrW) && decide (addr ≠ cfg.devAddr) && decide (low < cfg.nCmd)
  | .data _ => true
  | .chk _ => true
  | .dataIgn _ => true
  | .txData _ => true
  | .txChk _ => true
  | .txAck => true
  | .txNack => true
  | .registerSub c _ _ h => decide (c < cfg.nCmd) && handlerFits cfg h
  | .registerNosub c _ h => decide (c < cfg.nCmd) && handlerFits cfg h
  | .lookup c _ => decide (c < cfg.nCmd)
  | .ctxReset => true
  | .hwReset => true
  | .chk8 _ => true
  | .chkAdd _ _ => true
  | .chkVerify _ _ => true
  | .dispatch => true
  | .transmit n => decide (n ≤ cfg.txCap)

end Sys2Proof
end

