-- ==== Sys2Proof/Decode.lean ====
section
/-! DEFINITION. The fields of a word, the decoder of received words (30_encoding.md R70 to R73), the decoder of
transmitted words (R75, R76, R79), the encoder of both, and the operation an input event stands for (R82, R110). -/

namespace Sys2Proof

/-- `w[8]`, the mode flag (R8, R70). -/
def modeFlag (w : Word9) : Bool := w.getLsbD 8

/-- `w[7:0]`, the data byte (R70). -/
def dataByte (w : Word9) : Byte := w.setWidth 8

/-- `mode ++ data` (R8, R70, R75). -/
def mkWord (mode : Bool) (b : Byte) : Word9 := BitVec.ofBool mode ++ b

/-- `w[7:CMD_W]`, the address field (R71). -/
def addrField (cfg : Config) (w : Word9) : Nat := (dataByte w).toNat / 2 ^ cfg.cmdW

/-- `w[CMD_W-1:0]`, the command field (R71, R73). -/
def cmdField (cfg : Config) (w : Word9) : Nat := (dataByte w).toNat % 2 ^ cfg.cmdW

/-- The address byte `addr ++ cmd` (R71). -/
def addressByte (cfg : Config) (addr cmd : Nat) : Byte := BitVec.ofNat 8 (addr * 2 ^ cfg.cmdW + cmd)

/-- `w[8:0]` of the value the transport hands over; higher bits are ignored (R70). -/
def wordOfCarrier (carrier : Nat) : Word9 := BitVec.ofNat 9 carrier

/-- The five classes of R72, in the order of R110: the mode flag is tested before the state. Total: no received word
is illegal (R80). -/
def decode (cfg : Config) (st : FsmState) (w : Word9) : Instr :=
  if modeFlag w then
    if addrField cfg w = cfg.devAddr then .addrCmd (cmdField cfg w)
    else .addrOther (addrField cfg w) (cmdField cfg w)
  else
    match st with
    | .receivingData => .data (dataByte w)
    | .expectingChecksum => .chk (dataByte w)
    | .idle => .dataIgn (dataByte w)
    | .waitingAck => .dataIgn (dataByte w)

/-- Why a word is not the next word of a response. -/
inductive DecodeError where
  /-- A lone mode-set word that is neither `1 ++ ACK_CODE` nor `1 ++ NACK_CODE` (R76). -/
  | noSuchTerminator
  deriving DecidableEq, Repr

/-- The form of a transmitted word. `afterPayload` says whether payload words came before it, which is how the
receiver tells a checksum from a code (R79, R206). -/
def decodeTx (cfg : Config) (afterPayload : Bool) (w : Word9) : Except DecodeError Instr :=
  if modeFlag w then
    if afterPayload then .ok (.txChk (dataByte w))
    else if dataByte w = cfg.ackCode then .ok .txAck
    else if dataByte w = cfg.nackCode then .ok .txNack
    else .error .noSuchTerminator
  else .ok (.txData (dataByte w))

/-- The word of an operation that has an encoding (R71, R76, R83); `none` for a host or internal operation (R82). -/
def encode (cfg : Config) : Instr → Option Word9
  | .addrCmd c => some (mkWord true (addressByte cfg cfg.devAddr c))
  | .addrOther addr low => some (mkWord true (addressByte cfg addr low))
  | .data b => some (mkWord false b)
  | .chk k => some (mkWord false k)
  | .dataIgn b => some (mkWord false b)
  | .txData b => some (mkWord false b)
  | .txChk k => some (mkWord true k)
  | .txAck => some (mkWord true cfg.ackCode)
  | .txNack => some (mkWord true cfg.nackCode)
  | .registerSub _ _ _ _ => none
  | .registerNosub _ _ _ => none
  | .lookup _ _ => none
  | .ctxReset => none
  | .hwReset => none
  | .chk8 _ => none
  | .chkAdd _ _ => none
  | .chkVerify _ _ => none
  | .dispatch => none
  | .transmit _ => none

/-- Whether a received word of this operation's class can arrive in the state (the condition column of R72); false for
an operation that is no received word. -/
def Instr.receivedIn : Instr → FsmState → Bool
  | .addrCmd _, _ => true
  | .addrOther _ _, _ => true
  | .data _, st => decide (st = .receivingData)
  | .chk _, st => decide (st = .expectingChecksum)
  | .dataIgn _, st => decide (st = .idle) || decide (st = .waitingAck)
  | .txData _, _ => false
  | .txChk _, _ => false
  | .txAck, _ => false
  | .txNack, _ => false
  | .registerSub _ _ _ _, _ => false
  | .registerNosub _ _ _, _ => false
  | .lookup _ _, _ => false
  | .ctxReset, _ => false
  | .hwReset, _ => false
  | .chk8 _, _ => false
  | .chkAdd _ _, _ => false
  | .chkVerify _ _, _ => false
  | .dispatch, _ => false
  | .transmit _, _ => false

/-- The operation one input event runs in the state the framer is in (R6, R82, R110). -/
def instrOfInput (cfg : Config) (st : FsmState) : InputEvent → Instr
  | .hwReset => .hwReset
  | .ctxReset => .ctxReset
  | .register c (some s) len h => .registerSub c s len h
  | .register c none len h => .registerNosub c len h
  | .rxWord carrier => decode cfg st (wordOfCarrier carrier)

/-- The word of a table row, decoded as the framer decodes it right after reset: Idle, the configuration of
`State.reset` (log 32: a mode-clear word is `DATA` or `CHK` only in another state, and the words of the `TX` rows are
received words too). -/
def decodeTableWord (nbits w : Nat) : Option Instr :=
  some (decode Config.vectors .idle (wordOfCarrier (w % 2 ^ nbits)))

end Sys2Proof
end

