-- ==== Sys2Proof/Machine/State.lean ====
section
/-! DEFINITION. The state of the block, the pair (reg, ctx) of 10_state.md R20, with the model's own fields for what
00_scope.md R6 gives a step beside it; the output events; the reasons a step can stop; the state after reset. -/

namespace Sys2Proof.Machine

open Sys2Proof

/-- Bytes by index, addresses strictly rising, no entry 0x00: an unlisted index reads as 0x00, the reset content of
both buffers (10_state.md R32, D20; log 13). -/
abbrev Memory := List Host.Cell

/-- A Command Definition (10_state.md R21). -/
structure Definition where
  valid : Bool
  cmd : Nat
  sub : Option Byte
  /-- `exp_len`, `LEN_W = 8` bits (D30). -/
  expLen : Byte
  /-- `has_sub`. -/
  hasSub : Bool
  handler : Option Nat
  deriving DecidableEq, Repr

/-- A definition with `valid = 0`; the other fields as in `INIT_CTX` (10_state.md R25). -/
def Definition.unregistered : Definition := ⟨false, 0, none, 0, false, none⟩

/-- The registry by slot number (`slotIndex` in Machine/Ops.lean), strictly rising, registered definitions only: an
unlisted slot reads as `valid = 0` (10_state.md R22, R33; log 9). -/
abbrev Registry := List (Nat × Definition)

/-- The Parser Context (10_state.md R25). -/
structure Context where
  state : FsmState
  curCmd : Option Nat
  curSub : Option Byte
  /-- `ctx.def`, the latched copy (10_state.md R28). -/
  defn : Definition
  rxBuf : Memory
  rxIdx : Nat
  chk : Byte
  txBuf : Memory
  deriving DecidableEq, Repr

/-- `INIT_CTX` (10_state.md R25, R32; 70_reset_and_hazards.md R191). -/
def Context.init : Context where
  state := .idle
  curCmd := none
  curSub := none
  defn := .unregistered
  rxBuf := []
  rxIdx := 0
  chk := 0x00
  txBuf := []

/-- The four error kinds (60_exceptions.md R161). -/
inductive ErrorKind where
  | unrecognizedCommand
  | checksumMismatch
  | dispatchInconsistency
  | frameTooLong
  deriving DecidableEq, Repr

/-- The codes of R161 (D17). -/
def ErrorKind.code : ErrorKind → Nat
  | .unrecognizedCommand => 1
  | .checksumMismatch => 2
  | .dispatchInconsistency => 3
  | .frameTooLong => 4

/-- The `reason` of a `DispatchInconsistency` (43_dispatcher.md R131). -/
inductive DispatchReason where
  | mismatch
  | noHandler
  deriving DecidableEq, Repr

/-- What a `LOG` event carries: the kind and the info fields of R161, R163. -/
inductive LogEntry where
  | unrecognizedCommand (cmd : Nat) (sub : Option Byte)
  | checksumMismatch (cmd : Option Nat) (sub : Option Byte) (frame : List Byte) (received computed : Byte)
  | dispatchInconsistency (reason : DispatchReason) (cmd : Option Nat) (sub : Option Byte)
  | frameTooLong (cmd : Option Nat) (sub : Option Byte) (count : Nat)
  deriving DecidableEq, Repr

/-- The kind of a `LOG` event (R161). -/
def LogEntry.kind : LogEntry → ErrorKind
  | .unrecognizedCommand _ _ => .unrecognizedCommand
  | .checksumMismatch _ _ _ _ _ => .checksumMismatch
  | .dispatchInconsistency _ _ _ => .dispatchInconsistency
  | .frameTooLong _ _ _ => .frameTooLong

/-- The output events (00_scope.md R6). -/
inductive Output where
  /-- A word handed to the transmit callback (R75, R146). -/
  | tx (w : Word9)
  /-- One error handed to the logging sink (R163). -/
  | log (e : LogEntry)
  /-- One handler invocation (R132). -/
  | call (c : HandlerCall)
  deriving DecidableEq, Repr

/-- What a handler does when invoked: it returns (R152), or it never does (R136, R153 (b)). -/
inductive HandlerReply where
  | returns (r : HandlerResult)
  | hangs
  deriving DecidableEq, Repr

/-- One point of the handler functions the environment has fixed (log 6). -/
structure HandlerRow where
  call : HandlerCall
  reply : HandlerReply
  deriving DecidableEq, Repr

/-- The result of the last separately executed operation that has a result and writes no state of the block
(log 8). -/
inductive OpResult where
  | nothing
  /-- `LOOKUP`: `some d` is Found(d), `none` is NotFound (R104). -/
  | found (d : Option Definition)
  /-- `CHK8`, `CHK.ADD`. -/
  | byte (b : Byte)
  /-- `CHK.VERIFY`. -/
  | verdict (v : Bool)
  deriving DecidableEq, Repr

/-- The machine. `reg` and `ctx` are the block's whole state (10_state.md R20, R38); the other fields are the model's
own: configuration, environment and what a step answers (INVENTORY.md, log 1, 2, 6, 8). -/
structure State where
  /-- The configuration (00_scope.md R7); no step writes it (R191). -/
  cfg : Config
  /-- The Command Registry (10_state.md R22). -/
  reg : Registry
  /-- The Parser Context (10_state.md R25). -/
  ctx : Context
  /-- The environment's handlers, where fixed; no step writes it (45_control.md R152). -/
  handlers : List HandlerRow
  /-- Input events the environment has yet to deliver, first to come first (R6, R195). -/
  inputs : List InputEvent
  /-- Output events so far, in order (R6, R195). -/
  trace : List Output
  /-- See `OpResult`. -/
  result : OpResult
  deriving DecidableEq, Repr

/-- After power-on: `HW.RESET` has cleared registry and context (10_state.md R33, 70_reset_and_hazards.md R191), the
configuration is the vectors' (log 2, 3), and the environment has delivered nothing (log 1). -/
def State.reset : State where
  cfg := Config.vectors
  reg := []
  ctx := Context.init
  handlers := []
  inputs := []
  trace := []
  result := .nothing

/-- Why a step stops. Every one is safe: the model stops where the spec gives no result. -/
inductive Fault where
  /-- Raised by `DISPATCH` and `CHK` when the handler never returns: the hang that R136 shows as a step with no
  result. Safe. -/
  | handlerHang
  /-- Raised by `DATA` when `rx_idx` is above `RX_CAP` (no run reaches such a state, 10_state.md R35) and by
  `TRANSMIT` when `N` is above `TX_CAP` (R140 gives the operation no such operand): the byte has no place in RX or TX
  (20_memory.md R50, R54, R55). Safe. -/
  | bufferBounds
  /-- Raised by `DATA` when a subcommand is to be resolved and no command is current, which no run reaches (R115:
  "ctx.cur_cmd = some c here"). Safe. -/
  | noCurrentCommand
  deriving DecidableEq, Repr

/-- Why a step has no meaning. Every one is safe: the run is no run of the model. -/
inductive Refusal where
  /-- Raised by `exec` alone, for a row of the opcode table without a meaning. Safe. -/
  | notModelled (mnemonic : String)
  /-- Raised by `REGISTER.SUB` and `REGISTER.NOSUB` outside Idle under the policy `refuse` (41_registry.md R106, D28,
  U5). Safe. -/
  | registerOutsideIdle
  /-- Raised by `REGISTER.SUB` and `REGISTER.NOSUB` when `c` does not fit `CMD_W` bits or `h` does not fit `HID_W`
  bits: there is no such event (R82, R103). Safe. -/
  | operandWidth
  deriving DecidableEq, Repr

/-- The three outcomes of a step of this machine. -/
abbrev Result := Host.Outcome State Fault Refusal

end Sys2Proof.Machine
end

