-- ==== Sys2Proof/Machine/Ops.lean ====
section
/-! DEFINITION. The shared operations: sparse tables, the RX and TX buffers, the registry slots and `Lookup`, emitting
output events, `ContextReset`, and `raise`, the block's one error entry (60_exceptions.md R165). There is no return
operation beside it (R174): after `raise` the block is at once ready for the next frame. -/

namespace Sys2Proof.Machine

open Sys2Proof

/-- The value at a key; `d` where the key is not listed. -/
def sparseGet {α : Type} (d : α) : List (Nat × α) → Nat → α
  | [], _ => d
  | (k', v) :: rest, k => if k' = k then v else sparseGet d rest k

/-- Write one key, keeping keys rising and never listing `d`. -/
def sparseSet {α : Type} [DecidableEq α] (d : α) : List (Nat × α) → Nat → α → List (Nat × α)
  | [], k, v => if v = d then [] else [(k, v)]
  | (k', v') :: rest, k, v =>
    if k < k' then (if v = d then (k', v') :: rest else (k, v) :: (k', v') :: rest)
    else if k = k' then (if v = d then rest else (k, v) :: rest)
    else (k', v') :: sparseSet d rest k v

/-- The canonical form: keys strictly rising, no entry equal to what an unlisted key reads as. -/
abbrev sparseWf {α : Type} (d : α) (m : List (Nat × α)) : Prop :=
  m.Pairwise (fun a b => a.1 < b.1) ∧ ∀ e ∈ m, e.2 ≠ d

/-- The canonical form of a buffer. -/
abbrev Memory.wf (m : Memory) : Prop := sparseWf (0x00 : Byte) m

/-- `MemRead(space, a, 1)` (00_scope.md R9, 20_memory.md R50). -/
def Memory.read (m : Memory) (a : Nat) : Byte := sparseGet 0x00 m a

/-- `MemWrite(space, a, 1, v)`. -/
def Memory.write (m : Memory) (a : Nat) (v : Byte) : Memory := sparseSet 0x00 m a v

/-- Bytes `0 .. n-1` of a buffer, in index order. -/
def Memory.bytes (m : Memory) (n : Nat) : List Byte := (List.range n).map m.read

/-- `MemWrite` of a list of bytes, from index `a` upward. -/
def Memory.writeBytes (m : Memory) (a : Nat) : List Byte → Memory
  | [] => m
  | b :: bs => Memory.writeBytes (m.write a b) (a + 1) bs

/-- The number of slot `(c, s)`: 257 slots a command, `NOSUB` first (10_state.md R22). -/
def slotIndex (c : Nat) : Option Byte → Nat
  | none => c * 257
  | some b => c * 257 + 1 + b.toNat

/-- The canonical form of the registry. -/
abbrev Registry.wf (r : Registry) : Prop := sparseWf Definition.unregistered r

/-- `reg[c][s]`. -/
def Registry.slot (r : Registry) (c : Nat) (s : Option Byte) : Definition :=
  sparseGet Definition.unregistered r (slotIndex c s)

/-- `reg[c][s] <- d`. -/
def Registry.setSlot (r : Registry) (c : Nat) (s : Option Byte) (d : Definition) : Registry :=
  sparseSet Definition.unregistered r (slotIndex c s) d

/-- `Lookup(c, s)` (41_registry.md R104): `some d` is Found(d), `none` is NotFound. -/
def Registry.lookup (cfg : Config) (r : Registry) (c : Nat) : Option Byte → Option Definition
  | none => if (r.slot c none).valid then some (r.slot c none) else none
  | some b => if b.toNat < cfg.nSub ∧ (r.slot c (some b)).valid = true then some (r.slot c (some b)) else none

/-- `emit` (00_scope.md R9): append events to the step's output list. -/
def State.emit (s : State) (evs : List Output) : State := { s with trace := s.trace ++ evs }

/-- Replace the context. -/
def State.withCtx (s : State) (c : Context) : State := { s with ctx := c }

/-- Replace the registry. -/
def State.withReg (s : State) (r : Registry) : State := { s with reg := r }

/-- Answer a result (log 8). -/
def State.withResult (s : State) (r : OpResult) : State := { s with result := r }

/-- `ctx.state <- st`. -/
def State.withPhase (s : State) (st : FsmState) : State := s.withCtx { s.ctx with state := st }

/-- `ContextReset()` (45_control.md R150): `ctx <- INIT_CTX`. -/
def contextReset (s : State) : State := s.withCtx Context.init

/-- The words `raise` transmits after the reset: the NACK word of a checksum mismatch under the NACK policy, else none
(60_exceptions.md R165, R167). -/
def raiseWords (cfg : Config) (e : LogEntry) : List Output :=
  if e.kind = .checksumMismatch ∧ cfg.chkFailPolicy = .nack then [.tx (mkWord true cfg.nackCode)] else []

/-- `raise Kind(info)` (60_exceptions.md R165), error entry and recovery in one: LOG, context reset, the NACK word if
the policy asks for it; the raising rule then ends its step. -/
def raise (e : LogEntry) (s : State) : State :=
  (contextReset (s.emit [.log e])).emit (raiseWords s.cfg e)

end Sys2Proof.Machine
end

