-- ==== Sys2Proof/Machine/Flags.lean ====
section
/-! DEFINITION. The block has no flags (10_state.md R36). What stands here is its arithmetic (40_checksum.md R90 to
R93) and its one-bit tests: `Resolved` (10_state.md R28), the completion test (42_framer.md R116), the selector test
(R114), the rejection test (44_transmitter.md R140) and when a `REGISTER` is taken (41_registry.md R103, R106). -/

namespace Sys2Proof.Machine

open Sys2Proof

/-- `chk8` (R90): the exact sum of the bytes, modulo 256. -/
def checksum (bytes : List Byte) : Byte := BitVec.ofNat 8 (bytes.map BitVec.toNat).sum

/-- `chk_add` (R91): `(acc + b) mod 256`, the carry dropped. -/
def checksumAdd (acc b : Byte) : Byte := BitVec.ofNat 8 (acc.toNat + b.toNat)

/-- `chk_verify` (R92): equality of all eight bits. -/
def checksumVerify (acc k : Byte) : Bool := decide (k = acc)

/-- `Resolved(ctx)` (10_state.md R28). -/
def Context.resolved (c : Context) : Bool := c.defn.valid && !c.defn.hasSub

/-- The condition of `Complete()` (42_framer.md R116): equality of natural numbers (R93). -/
def Context.completes (c : Context) : Bool := c.resolved && decide (c.rxIdx = c.defn.expLen.toNat)

/-- The payload byte just stored is the subcommand selector (42_framer.md R114): the second byte, with a sentinel
latched. -/
def Context.atSelector (c : Context) : Bool := decide (c.rxIdx = 2) && c.defn.hasSub

/-- The rejection test (44_transmitter.md R140): the first output byte is the negative sentinel, for every `N`
(D6, log 26). -/
def rejected (cfg : Config) (tx : Memory) : Bool := decide (tx.read 0 = cfg.negSentinel)

/-- A `REGISTER` is taken in Idle, and elsewhere only under the policy `perform` (41_registry.md R106, log 10). -/
def registerTaken (s : State) : Bool :=
  decide (s.ctx.state = .idle) || decide (s.cfg.registerPolicy = .perform)

/-- The operands of a `REGISTER` fit their widths (R82, R103). -/
def registerFits (cfg : Config) (c : Nat) (h : Option Nat) : Bool := decide (c < cfg.nCmd) && handlerFits cfg h

end Sys2Proof.Machine
end

