-- ==== Sys2Proof/Machine/Operands.lean ====
section
/-! DEFINITION. The operands an operation reads from the state: the payload (10_state.md R29), what a handler is given
and what it answers (43_dispatcher.md R132, R133; 45_control.md R152), the words of a response (30_encoding.md R76,
R77), the definitions a `REGISTER` writes (41_registry.md R100, R101), and the event sequences of 45_control.md R155
and 30_encoding.md R86. -/

namespace Sys2Proof.Machine

open Sys2Proof

/-- `RX[0 .. rx_idx-1]`, the payload received so far (10_state.md R29). -/
def Context.payload (c : Context) : List Byte := c.rxBuf.bytes c.rxIdx

/-- What the handler bound to `h` is given (R132): the pair of codes, the whole receive buffer, the payload length. -/
def handlerCall (s : State) (h cmd : Nat) : HandlerCall where
  handler := h
  cmd := cmd
  sub := s.ctx.curSub
  rx := s.ctx.rxBuf.bytes s.cfg.rxCap
  n := s.ctx.rxIdx

/-- What the environment's handlers answer to a call: the row that fixes it, else the opaque `Config.handlers`
(R152, log 6). -/
def handlerReply (rows : List HandlerRow) (c : HandlerCall) : HandlerReply :=
  match rows.find? (fun r => decide (r.call = c)) with
  | some r => r.reply
  | none => .returns (Config.handlers c)

/-- The handler's output as a whole array of `TX_CAP` bytes (R133): bytes it leaves untouched are 0x00
(20_memory.md R63), bytes past the array have no place (R55; log 7). -/
def outputArray (cfg : Config) (out : List Byte) : List Byte :=
  (out ++ List.replicate cfg.txCap 0x00).take cfg.txCap

/-- The data bits of the terminator (R76, R140). -/
def terminatorByte (cfg : Config) (tx : Memory) (n : Nat) : Byte :=
  if rejected cfg tx then cfg.nackCode
  else if 0 < n then checksum (tx.bytes n)
  else cfg.ackCode

/-- The words of a response (R77): `n` mode-clear payload words in index order, then the terminator. -/
def responseWords (cfg : Config) (tx : Memory) (n : Nat) : List Word9 :=
  (tx.bytes n).map (mkWord false) ++ [mkWord true (terminatorByte cfg tx n)]

/-- The sentinel of a command with subcommands (10_state.md R23, 41_registry.md R100). -/
def sentinelDef (c : Nat) : Definition where
  valid := true
  cmd := c
  sub := none
  expLen := 0
  hasSub := true
  handler := none

/-- A definition that binds a handler (41_registry.md R100, R101). -/
def boundDef (c : Nat) (s : Option Byte) (len : Byte) (h : Option Nat) : Definition where
  valid := true
  cmd := c
  sub := s
  expLen := len
  hasSub := false
  handler := h

/-- Strobes that coincide, as the sequence of steps of R155 (D22): `HW.RESET` discards the others. -/
def strobeEvents (st : Strobes) : List InputEvent :=
  if st.hwReset then [.hwReset]
  else
    (if st.ctxReset then [.ctxReset] else []) ++
      (match st.register with
        | some r => [.register r.c r.s r.len r.h]
        | none => []) ++
      (match st.rxWord with
        | some w => [.rxWord w]
        | none => [])

/-- `A(c)` (00_scope.md R10, 30_encoding.md R86). -/
def addressEvent (cfg : Config) (c : Nat) : InputEvent :=
  .rxWord (mkWord true (addressByte cfg cfg.devAddr c)).toNat

/-- `D(b)` (00_scope.md R10, 30_encoding.md R86). -/
def dataEvent (b : Byte) : InputEvent := .rxWord (mkWord false b).toNat

/-- The words of a frame with the checksum byte `k` (30_encoding.md R86): `FRAME` when `k` is the checksum of the
payload, `BADFRAME` otherwise. -/
def frameEvents (cfg : Config) (c : Nat) (payload : List Byte) (k : Byte) : List InputEvent :=
  addressEvent cfg c :: (payload.map dataEvent ++ [dataEvent k])

end Sys2Proof.Machine
end

