-- ==== Sys2Proof/Machine/Checksum.lean ====
section
/-! DEFINITION. The Checksum Engine as operations of their own (40_checksum.md): each answers its result and writes no
state of the block (R94). -/

namespace Sys2Proof.Machine

open Sys2Proof

/-- `CHK8` (R90). -/
def execChk8 (bytes : List Byte) (s : State) : Result := .next (s.withResult (.byte (checksum bytes)))

/-- `CHK.ADD` (R91). -/
def execChkAdd (acc b : Byte) (s : State) : Result := .next (s.withResult (.byte (checksumAdd acc b)))

/-- `CHK.VERIFY` (R92). -/
def execChkVerify (acc k : Byte) (s : State) : Result := .next (s.withResult (.verdict (checksumVerify acc k)))

end Sys2Proof.Machine
end

