-- ==== Sys2Proof/Machine/Control.lean ====
section
/-! DEFINITION. The control operations (45_control.md): the Reset API and the hardware reset. -/

namespace Sys2Proof.Machine

open Sys2Proof

/-- `CTX.RESET` (R150): one `ContextReset()` and nothing more. -/
def execCtxReset (s : State) : Result := .next (contextReset s)

/-- `HW.RESET` (R151): every slot unregistered, the context initial, no event. -/
def execHwReset (s : State) : Result := .next (contextReset (s.withReg []))

end Sys2Proof.Machine
end

