-- ==== Sys2Proof/Machine/Transmitter.lean ====
section
/-! DEFINITION. The Transmitter (44_transmitter.md): the four transmitted-word forms and `TRANSMIT`. A `TX` event
always succeeds (R146, D27, log 29). -/

namespace Sys2Proof.Machine

open Sys2Proof

/-- `Transmit(N)` (R140): the words of the response, in order; no other effect (R147). -/
def transmitResponse (n : Nat) (s : State) : State :=
  s.emit ((responseWords s.cfg s.ctx.txBuf n).map Output.tx)

/-- `TX.DATA` (R141): one mode-clear word with the byte. -/
def execTxData (b : Byte) (s : State) : Result := .next (s.emit [.tx (mkWord false b)])

/-- `TX.CHK` (R142): one mode-set word with the checksum byte. -/
def execTxChk (k : Byte) (s : State) : Result := .next (s.emit [.tx (mkWord true k)])

/-- `TX.ACK` (R143): `1 ++ ACK_CODE`. -/
def execTxAck (s : State) : Result := .next (s.emit [.tx (mkWord true s.cfg.ackCode)])

/-- `TX.NACK` (R144): `1 ++ NACK_CODE`. -/
def execTxNack (s : State) : Result := .next (s.emit [.tx (mkWord true s.cfg.nackCode)])

/-- `TRANSMIT` (R140), whose operand is at most `TX_CAP`. -/
def execTransmit (n : Nat) (s : State) : Result :=
  if s.cfg.txCap < n then .fault .bufferBounds else .next (transmitResponse n s)

end Sys2Proof.Machine
end

