-- ==== Sys2Proof/Machine/Dispatcher.lean ====
section
/-! DEFINITION. The Dispatcher (43_dispatcher.md). -/

namespace Sys2Proof.Machine

open Sys2Proof

/-- The handler's output becomes the content of TX: one byte write for each index below `TX_CAP` (R131, R133). -/
def loadOutput (out : List Byte) (s : State) : State :=
  s.withCtx { s.ctx with txBuf := s.ctx.txBuf.writeBytes 0 (outputArray s.cfg out) }

/-- What follows the handler's return (R131, R134): a count that does not fit is `FrameTooLong`, with nothing
transmitted; otherwise the output is loaded and the response sent. -/
def finishDispatch (r : HandlerResult) (s : State) : State :=
  if s.cfg.txCap < r.count then raise (.frameTooLong s.ctx.curCmd s.ctx.curSub r.count) s
  else transmitResponse r.count (loadOutput r.out s)

/-- The invocation (R131, R132): `CALL`, then what the handler's reply leads to. A handler that never returns leaves a
step with no result (R136, R153 (b)). -/
def invokeHandler (h cmd : Nat) (s : State) : Result :=
  match handlerReply s.handlers (handlerCall s h cmd) with
  | .hangs => .fault .handlerHang
  | .returns r => .next (finishDispatch r (s.emit [.call (handlerCall s h cmd)]))

/-- `Dispatch()` (R131): the mismatch test, the handler test, the invocation, in this order (D25). Past the first test
`cur_cmd` is the definition's own code. -/
def dispatchFrame (s : State) : Result :=
  if s.ctx.curCmd ≠ some s.ctx.defn.cmd ∨ s.ctx.curSub ≠ s.ctx.defn.sub then
    .next (raise (.dispatchInconsistency .mismatch s.ctx.curCmd s.ctx.curSub) s)
  else
    match s.ctx.defn.handler with
    | none => .next (raise (.dispatchInconsistency .noHandler s.ctx.curCmd s.ctx.curSub) s)
    | some h => invokeHandler h s.ctx.defn.cmd s

/-- `DISPATCH` (R131). -/
def execDispatch (s : State) : Result := dispatchFrame s

end Sys2Proof.Machine
end

