-- ==== Sys2Proof/Machine/Framer.lean ====
section
/-! DEFINITION. The Frame State Machine (42_framer.md): the rule of each received-word class. -/

namespace Sys2Proof.Machine

open Sys2Proof

/-- `Complete()` (R116). -/
def complete (s : State) : State := if s.ctx.completes then s.withPhase .expectingChecksum else s

/-- The latching of a found command (R112). -/
def latchCommand (c : Nat) (d : Definition) (s : State) : State :=
  s.withCtx { s.ctx with curCmd := some c, defn := d, state := .receivingData }

/-- The latching of a found subcommand (R115). -/
def latchSubcommand (b : Byte) (d : Definition) (s : State) : State :=
  s.withCtx { s.ctx with curSub := some b, defn := d }

/-- The store of one payload byte (R114): RX at `rx_idx`, the index, the running sum. -/
def storePayload (b : Byte) (s : State) : State :=
  s.withCtx { s.ctx with
    rxBuf := s.ctx.rxBuf.write s.ctx.rxIdx b
    rxIdx := s.ctx.rxIdx + 1
    chk := checksumAdd s.ctx.chk b }

/-- `Resolve(b)` and, where it does not raise, `Complete()` (R115, R116). -/
def resolveSubcommand (b : Byte) (s : State) : Result :=
  match s.ctx.curCmd with
  | none => .fault .noCurrentCommand
  | some c =>
    match s.reg.lookup s.cfg c (some b) with
    | none => .next (raise (.unrecognizedCommand c (some b)) s)
    | some d => .next (complete (latchSubcommand b d s))

/-- `ADDR.CMD` (R112). -/
def execAddrCmd (c : Nat) (s : State) : Result :=
  match s.reg.lookup s.cfg c none with
  | none => .next (raise (.unrecognizedCommand c none) (contextReset s))
  | some d => .next (complete (latchCommand c d (contextReset s)))

/-- `ADDR.OTHER` (R113): nothing; neither field is looked at. -/
def execAddrOther (_addr _low : Nat) (s : State) : Result := .next s

/-- `DATA` (R114): the capacity test, the store, the selector, the completion test. -/
def execData (b : Byte) (s : State) : Result :=
  if s.ctx.rxIdx = s.cfg.rxCap then .next (raise (.frameTooLong s.ctx.curCmd s.ctx.curSub s.ctx.rxIdx) s)
  else if s.cfg.rxCap < s.ctx.rxIdx then .fault .bufferBounds
  else if (storePayload b s).ctx.atSelector then resolveSubcommand b (storePayload b s)
  else .next (complete (storePayload b s))

/-- `CHK` (R118): an equal byte validates the frame and dispatches it; any other raises `ChecksumMismatch`. -/
def execChk (k : Byte) (s : State) : Result :=
  if checksumVerify s.ctx.chk k then dispatchFrame (s.withPhase .waitingAck)
  else .next (raise (.checksumMismatch s.ctx.curCmd s.ctx.curSub s.ctx.payload k s.ctx.chk) s)

/-- `DATA.IGN` (R119): nothing; the byte is not looked at. -/
def execDataIgn (_b : Byte) (s : State) : Result := .next s

end Sys2Proof.Machine
end

