-- ==== Sys2Proof/Machine/Registry.lean ====
section
/-! DEFINITION. The Command Registry (41_registry.md): `REGISTER` in its two forms and `LOOKUP`. -/

namespace Sys2Proof.Machine

open Sys2Proof

/-- When a `REGISTER` is taken, and what it then does to the registry; `ctx` is not touched and nothing is emitted
(R100 to R103, R106). -/
def registerWith (c : Nat) (h : Option Nat) (write : Registry → Registry) (s : State) : Result :=
  if registerFits s.cfg c h = false then .refused .operandWidth
  else if registerTaken s = false then .refused .registerOutsideIdle
  else .next (s.withReg (write s.reg))

/-- The two writes of R100, in its order; none for a subcommand with no slot (R103, D31, log 11). -/
def writeSubcommand (cfg : Config) (c : Nat) (sub : Byte) (len : Byte) (h : Option Nat) (r : Registry) : Registry :=
  if sub.toNat < cfg.nSub then (r.setSlot c none (sentinelDef c)).setSlot c (some sub) (boundDef c (some sub) len h)
  else r

/-- `REGISTER.SUB` (R100, R102, R103, R106). -/
def execRegisterSub (c : Nat) (sub : Byte) (len : Byte) (h : Option Nat) (s : State) : Result :=
  registerWith c h (writeSubcommand s.cfg c sub len h) s

/-- `REGISTER.NOSUB` (R101, R102, R106). -/
def execRegisterNosub (c : Nat) (len : Byte) (h : Option Nat) (s : State) : Result :=
  registerWith c h (fun r => r.setSlot c none (boundDef c none len h)) s

/-- `LOOKUP` (R104): reads one slot, answers the result, writes no state of the block. -/
def execLookup (c : Nat) (sub : Option Byte) (s : State) : Result :=
  .next (s.withResult (.found (s.reg.lookup s.cfg c sub)))

end Sys2Proof.Machine
end

