-- ==== Sys2Proof/Machine/Dispatch.lean ====
section
/-! DEFINITION. One arm per operation of the opcode table (30_encoding.md R83). -/

namespace Sys2Proof.Machine

open Sys2Proof

def exec (i : Instr) (s : State) : Host.Outcome State Fault Refusal :=
  match i with
  | .addrCmd c => Sys2Proof.Machine.execAddrCmd c s
  | .addrOther addr low => Sys2Proof.Machine.execAddrOther addr low s
  | .data b => Sys2Proof.Machine.execData b s
  | .chk k => Sys2Proof.Machine.execChk k s
  | .dataIgn b => Sys2Proof.Machine.execDataIgn b s
  | .txData b => Sys2Proof.Machine.execTxData b s
  | .txChk k => Sys2Proof.Machine.execTxChk k s
  | .txAck => Sys2Proof.Machine.execTxAck s
  | .txNack => Sys2Proof.Machine.execTxNack s
  | .registerSub c sub len h => Sys2Proof.Machine.execRegisterSub c sub len h s
  | .registerNosub c len h => Sys2Proof.Machine.execRegisterNosub c len h s
  | .lookup c sub => Sys2Proof.Machine.execLookup c sub s
  | .ctxReset => Sys2Proof.Machine.execCtxReset s
  | .hwReset => Sys2Proof.Machine.execHwReset s
  | .chk8 bytes => Sys2Proof.Machine.execChk8 bytes s
  | .chkAdd acc b => Sys2Proof.Machine.execChkAdd acc b s
  | .chkVerify acc k => Sys2Proof.Machine.execChkVerify acc k s
  | .dispatch => Sys2Proof.Machine.execDispatch s
  | .transmit n => Sys2Proof.Machine.execTransmit n s

end Sys2Proof.Machine
end

