-- ==== Sys2Proof/Machine/Step.lean ====
section
/-! DEFINITION. The step (00_scope.md R6): the first input event not yet delivered is taken, decoded in the state the
framer is in, and run to completion. -/

namespace Sys2Proof.Machine

open Sys2Proof

/-- One step. With no event to take the block does nothing (60_exceptions.md R181, 42_framer.md R123; log 1). -/
def step (s : State) : Host.Outcome State Fault Refusal :=
  match s.inputs with
  | [] => .next s
  | ev :: rest => exec (instrOfInput s.cfg s.ctx.state ev) { s with inputs := rest }

/-- The state with a word put where `step` takes its next event: a `RXWORD` before whatever else is to come (log 1). -/
def State.withFetchWord (s : State) (nbits w : Nat) : State :=
  { s with inputs := .rxWord (w % 2 ^ nbits) :: s.inputs }

end Sys2Proof.Machine
end

