-- ==== Sys2Proof/Safety.lean ====
section
/-! DEFINITION. What the claims call a safe state: the invariants of 10_state.md R35 with those of R23, R29, R31,
41_registry.md R105 and the canonical form of the tables; and what they call a safe step. -/

namespace Sys2Proof.Machine

open Sys2Proof

/-- One registered definition agrees with its slot (R105), lies in the table (10_state.md R22) and is a sentinel or a
bound definition (R23). -/
abbrev EntryInv (cfg : Config) (e : Nat × Definition) : Prop :=
  e.2.valid = true ∧ e.1 = slotIndex e.2.cmd e.2.sub ∧ e.2.cmd < cfg.nCmd ∧
    (∀ b ∈ e.2.sub, b.toNat < cfg.nSub ∧ e.2.hasSub = false) ∧
    (e.2.hasSub = true → e.2.sub = none ∧ e.2.handler = none) ∧ handlerFits cfg e.2.handler = true

/-- The registry invariant. -/
abbrev RegInv (cfg : Config) (r : Registry) : Prop := r.wf ∧ ∀ e ∈ r, EntryInv cfg e

/-- Both buffers in canonical form; no listed byte outside what has been received (R29) or outside TX; TX all 0x00
until a handler has been invoked (R31). -/
abbrev BufferInv (cfg : Config) (c : Context) : Prop :=
  c.rxBuf.wf ∧ c.txBuf.wf ∧ (∀ e ∈ c.rxBuf, e.1 < c.rxIdx) ∧ (∀ e ∈ c.txBuf, e.1 < cfg.txCap) ∧
    (c.state ≠ .waitingAck → c.txBuf = [])

/-- A valid latched definition is the current pair's (R35.7), and carries no subcommand while it is a sentinel. -/
abbrev LatchInv (c : Context) : Prop :=
  c.defn.valid = true →
    c.curCmd = some c.defn.cmd ∧ c.curSub = c.defn.sub ∧ (c.defn.hasSub = true → c.defn.sub = none)

/-- R35.3 to R35.6, by the state the framer is in. -/
abbrev PhaseInv (c : Context) : Prop :=
  (c.state = .idle → c = Context.init) ∧
    (c.state = .receivingData →
      c.defn.valid = true ∧
        (c.defn.hasSub = false → c.rxIdx ≠ c.defn.expLen.toNat) ∧ (c.defn.hasSub = true → c.rxIdx ≤ 1) ∧
        (c.defn.hasSub = false → c.defn.expLen.toNat < c.rxIdx → c.curSub.isSome = true ∧ c.defn.expLen.toNat < 2)) ∧
    (c.state = .expectingChecksum → c.resolved = true ∧ c.rxIdx = c.defn.expLen.toNat) ∧
    (c.state = .waitingAck →
      c.resolved = true ∧ c.rxIdx = c.defn.expLen.toNat ∧ c.defn.handler.isSome = true)

/-- The context invariant: R35.1, R35.2 and the above. -/
abbrev CtxInv (cfg : Config) (c : Context) : Prop :=
  c.rxIdx ≤ cfg.rxCap ∧ c.chk = checksum c.payload ∧ BufferInv cfg c ∧ LatchInv c ∧ PhaseInv c

/-- The invariant of the machine: a legal configuration, and the registry and the context as above. -/
abbrev Inv (s : State) : Prop := s.cfg.Legal ∧ RegInv s.cfg s.reg ∧ CtxInv s.cfg s.ctx

/-- The next event, if any, is a `REGISTER` only in Idle and only with operands that fit (41_registry.md R103, R106):
the host keeps its duties of 70_reset_and_hazards.md R196. -/
abbrev HostDuty (s : State) : Prop :=
  match s.inputs with
  | .register c _ _ h :: _ => registerFits s.cfg c h = true ∧ registerTaken s = true
  | _ => True

/-- No handler the environment has fixed hangs (R153 (b), R196). -/
abbrev HandlersReturn (s : State) : Prop := ∀ r ∈ s.handlers, r.reply ≠ .hangs

/-- Everything but the context and the trace is the same. -/
abbrev SameOutsideContext (s t : State) : Prop :=
  t.cfg = s.cfg ∧ t.reg = s.reg ∧ t.handlers = s.handlers ∧ t.inputs = s.inputs ∧ t.result = s.result

/-- Everything but the registry is the same. -/
abbrev SameOutsideRegistry (s t : State) : Prop :=
  t.cfg = s.cfg ∧ t.ctx = s.ctx ∧ t.handlers = s.handlers ∧ t.inputs = s.inputs ∧ t.trace = s.trace ∧
    t.result = s.result

/-- An error step as 60_exceptions.md R165 gives it: from `s` to `t` with the events `pre` before the LOG, one LOG, the
context initial, then the NACK word only for a checksum mismatch under the NACK policy; nothing else changes. -/
abbrev ErrorStep (s t : State) (pre : List Output) (e : LogEntry) : Prop :=
  t.ctx = Context.init ∧ SameOutsideContext s t ∧
    t.trace = s.trace ++ pre ++ [.log e] ++
      (if e.kind = .checksumMismatch ∧ s.cfg.chkFailPolicy = .nack then [.tx (1#1 ++ s.cfg.nackCode)] else [])

/-- The events of a response with the output bytes `byte 0, byte 1, …` and the count `n`, written from the text of
44_transmitter.md R140 (its rejection test for every `n`: D6, log 26). -/
def responseEvents (cfg : Config) (byte : Nat → Byte) (n : Nat) : List Output :=
  (List.range n).map (fun i => .tx (0#1 ++ byte i)) ++
    [.tx (1#1 ++
      (if byte 0 = cfg.negSentinel then cfg.nackCode
       else if 0 < n then BitVec.ofNat 8 ((List.range n).map fun i => (byte i).toNat).sum
       else cfg.ackCode))]

/-- The `i`-th byte of a handler's output array; a byte it leaves untouched is 0x00 (20_memory.md R63). -/
def outByte (r : HandlerResult) (i : Nat) : Byte := r.out.getD i 0x00

/-- The step has a result. -/
def SafeStep (s : State) : Prop := ∃ t, step s = .next t

end Sys2Proof.Machine
end

