-- ==== Sys2Proof/Certificates/Slice0/Obligations.lean ====
section
/-! DEFINITION. The statements for the provers. Each docstring names the rule or the section of spec/ it formalises,
and says where a clause is a decision of the spec's own (D<n>) or the model's (log <n>). -/

open Sys2Proof Sys2Proof.Machine

/-! Words and the step. -/

/-- 30_encoding.md, the received-word formats: decoding the word of a received-class operation, in a state that class
can arrive in, gives the operation back, whatever the configuration and the operands. -/
def Obligations.DecodeOfEncodedReceivedWord : Prop :=
  ∀ (cfg : Config) (st : FsmState) (i : Instr) (w : Word9), cfg.Legal → i.wf cfg = true → i.receivedIn st = true →
    encode cfg i = some w → decode cfg st w = i

/-- 30_encoding.md, the classification: every one of the 512 words decodes, in every state, to a well-formed operation
whose word it is and whose class can arrive there. -/
def Obligations.EveryReceivedWordIsItsOperationsWord : Prop :=
  ∀ (cfg : Config) (st : FsmState) (w : Word9), cfg.Legal →
    encode cfg (decode cfg st w) = some w ∧ (decode cfg st w).wf cfg = true ∧ (decode cfg st w).receivedIn st = true

/-- 30_encoding.md, the transmitted words: the four forms decode back, a checksum after payload words and a code on its
own; a lone mode-set word with another code is rejected by name. -/
def Obligations.TransmittedWordsDecodeBack : Prop :=
  ∀ cfg : Config, cfg.Legal →
    (∀ after b, ∃ w, encode cfg (.txData b) = some w ∧ decodeTx cfg after w = .ok (.txData b)) ∧
    (∀ k, ∃ w, encode cfg (.txChk k) = some w ∧ decodeTx cfg true w = .ok (.txChk k)) ∧
    (∃ w, encode cfg .txAck = some w ∧ decodeTx cfg false w = .ok .txAck) ∧
    (∃ w, encode cfg .txNack = some w ∧ decodeTx cfg false w = .ok .txNack) ∧
    (∀ k, k ≠ cfg.ackCode → k ≠ cfg.nackCode → decodeTx cfg false (1#1 ++ k) = .error .noSuchTerminator)

/-- Words written out from the encodings of 30_encoding.md and 95_test_vectors.md at the vectors' configuration. -/
def Obligations.SpecWordsDecodeAsTheSpecSays : Prop :=
  decode Config.vectors .idle 0b1_0001_0001#9 = .addrCmd 1 ∧
    decode Config.vectors .waitingAck 0b1_0001_1111#9 = .addrCmd 15 ∧
    decode Config.vectors .expectingChecksum 0b1_1010_1010#9 = .addrOther 10 10 ∧
    decode Config.vectors .receivingData 0b1_0010_0011#9 = .addrOther 2 3 ∧
    decode Config.vectors .receivingData 0b0_1111_0101#9 = .data 0xF5 ∧
    decode Config.vectors .expectingChecksum 0b0_1010_1010#9 = .chk 0xAA ∧
    decode Config.vectors .idle 0b0_0101_0101#9 = .dataIgn 0x55 ∧
    decodeTx Config.vectors false 0b1_0000_0000#9 = .ok .txAck ∧
    decodeTx Config.vectors false 0b1_1111_1111#9 = .ok .txNack ∧
    decodeTx Config.vectors true 0b1_0001_0001#9 = .ok (.txChk 0x11) ∧
    decodeTx Config.vectors false 0b0_1111_0000#9 = .ok (.txData 0xF0)

/-- 30_encoding.md section 1 (D2): of a wider value only bits 8:0 count. -/
def Obligations.BitsAboveEightAreIgnored : Prop :=
  ∀ (s : State) (n : Nat) (rest : List InputEvent),
    step { s with inputs := .rxWord n :: rest } = step { s with inputs := .rxWord (n % 512) :: rest }

/-- A step takes the first event and runs the operation it stands for, in the state with that event taken. -/
def Obligations.StepRunsTheOperationOfTheFirstEvent : Prop :=
  ∀ (s : State) (ev : InputEvent) (rest : List InputEvent), s.inputs = ev :: rest →
    step s = exec (instrOfInput s.cfg s.ctx.state ev) { s with inputs := rest } ∧
      (ev = .hwReset → step s = exec .hwReset { s with inputs := rest }) ∧
      (ev = .ctxReset → step s = exec .ctxReset { s with inputs := rest }) ∧
      (∀ c b len h, ev = .register c (some b) len h →
        step s = exec (.registerSub c b len h) { s with inputs := rest }) ∧
      (∀ c len h, ev = .register c none len h → step s = exec (.registerNosub c len h) { s with inputs := rest })

/-- 42_framer.md section 1: the mode flag decides first, then the address field or the state before the step; exactly
one class rule runs. The fields are written out on the number the transport hands over: that its bits above 8 are
ignored is D2 (log 5), that the command is the low field of the address byte is D3 (log 4). -/
def Obligations.ReceivedWordRunsExactlyItsClassRule : Prop :=
  ∀ (s : State) (n : Nat) (rest : List InputEvent), s.inputs = .rxWord n :: rest →
    (n / 256 % 2 = 1 → n % 256 / 2 ^ s.cfg.cmdW = s.cfg.devAddr →
      step s = exec (.addrCmd (n % 256 % 2 ^ s.cfg.cmdW)) { s with inputs := rest }) ∧
    (n / 256 % 2 = 1 → n % 256 / 2 ^ s.cfg.cmdW ≠ s.cfg.devAddr →
      step s = exec (.addrOther (n % 256 / 2 ^ s.cfg.cmdW) (n % 256 % 2 ^ s.cfg.cmdW)) { s with inputs := rest }) ∧
    (n / 256 % 2 = 0 → s.ctx.state = .receivingData →
      step s = exec (.data (BitVec.ofNat 8 n)) { s with inputs := rest }) ∧
    (n / 256 % 2 = 0 → s.ctx.state = .expectingChecksum →
      step s = exec (.chk (BitVec.ofNat 8 n)) { s with inputs := rest }) ∧
    (n / 256 % 2 = 0 → s.ctx.state = .idle ∨ s.ctx.state = .waitingAck →
      step s = exec (.dataIgn (BitVec.ofNat 8 n)) { s with inputs := rest })

/-- With no event to take nothing happens (70_reset_and_hazards.md section 3, no timeout; log 1: the step then answers
the same state). -/
def Obligations.NothingHappensWithoutAnEvent : Prop := ∀ s : State, s.inputs = [] → step s = .next s

/-! The Frame State Machine. -/

/-- 42_framer.md section 2, `ADDR.CMD` with a registered command: the context starts afresh with the command latched;
a plain command of length 0 goes on to ExpectingChecksum (D10). Nothing is emitted. -/
def Obligations.RegisteredCommandStartsAFreshFrame : Prop :=
  ∀ (c : Nat) (s : State), (s.reg.slot c none).valid = true →
    ∃ t, exec (.addrCmd c) s = .next t ∧ SameOutsideContext s t ∧ t.trace = s.trace ∧
      t.ctx = { Context.init with
        curCmd := some c
        defn := s.reg.slot c none
        state :=
          if (s.reg.slot c none).hasSub = false ∧ (s.reg.slot c none).expLen = 0 then .expectingChecksum
          else .receivingData }

/-- 42_framer.md section 2 and 60_exceptions.md section 1: `ADDR.CMD` with a command never registered. -/
def Obligations.UnregisteredCommandIsLoggedAndDiscarded : Prop :=
  ∀ (c : Nat) (s : State), (s.reg.slot c none).valid = false →
    ∃ t, exec (.addrCmd c) s = .next t ∧ ErrorStep s t [] (.unrecognizedCommand c none)

/-- 42_framer.md sections 2 and 5 (D14, D15): a word for another device, and a data word in Idle or WaitingAck, change
nothing and emit nothing. -/
def Obligations.IgnoredWordsChangeNothing : Prop :=
  ∀ (addr low : Nat) (b : Byte) (s : State),
    exec (.addrOther addr low) s = .next s ∧ exec (.dataIgn b) s = .next s

/-- 42_framer.md section 3, `DATA` below the capacity and not at the selector: the byte goes to RX at `rx_idx` and
nowhere else, index and sum advance, and the frame completes when the index reaches the resolved length. -/
def Obligations.PayloadByteIsStoredAndSummed : Prop :=
  ∀ (b : Byte) (s : State), s.ctx.rxBuf.wf → s.ctx.rxIdx < s.cfg.rxCap →
    ¬(s.ctx.rxIdx = 1 ∧ s.ctx.defn.hasSub = true) →
    ∃ t, exec (.data b) s = .next t ∧ SameOutsideContext s t ∧ t.trace = s.trace ∧
      t.ctx.rxBuf.read s.ctx.rxIdx = b ∧ (∀ a, a ≠ s.ctx.rxIdx → t.ctx.rxBuf.read a = s.ctx.rxBuf.read a) ∧
      (∀ a, t.ctx.txBuf.read a = s.ctx.txBuf.read a) ∧ t.ctx.rxBuf.wf ∧
      t.ctx.rxIdx = s.ctx.rxIdx + 1 ∧ t.ctx.chk.toNat = (s.ctx.chk.toNat + b.toNat) % 256 ∧
      t.ctx.curCmd = s.ctx.curCmd ∧ t.ctx.curSub = s.ctx.curSub ∧ t.ctx.defn = s.ctx.defn ∧
      t.ctx.state =
        if s.ctx.defn.valid = true ∧ s.ctx.defn.hasSub = false ∧ s.ctx.rxIdx + 1 = s.ctx.defn.expLen.toNat then
          .expectingChecksum
        else s.ctx.state

/-- 42_framer.md section 3, the selector: the second payload byte of a command with subcommands is stored and summed
like any other and latches the subcommand's definition, which decides completion. -/
def Obligations.SecondByteSelectsTheSubcommand : Prop :=
  ∀ (b : Byte) (c : Nat) (s : State), s.ctx.rxBuf.wf → s.ctx.rxIdx = 1 → 1 < s.cfg.rxCap →
    s.ctx.defn.hasSub = true → s.ctx.curCmd = some c → b.toNat < s.cfg.nSub →
    (s.reg.slot c (some b)).valid = true →
    ∃ t, exec (.data b) s = .next t ∧ SameOutsideContext s t ∧ t.trace = s.trace ∧
      t.ctx.rxBuf.read 1 = b ∧ (∀ a, a ≠ 1 → t.ctx.rxBuf.read a = s.ctx.rxBuf.read a) ∧
      (∀ a, t.ctx.txBuf.read a = s.ctx.txBuf.read a) ∧ t.ctx.rxIdx = 2 ∧
      t.ctx.chk.toNat = (s.ctx.chk.toNat + b.toNat) % 256 ∧
      t.ctx.curCmd = some c ∧ t.ctx.curSub = some b ∧ t.ctx.defn = s.reg.slot c (some b) ∧
      t.ctx.state =
        if (s.reg.slot c (some b)).hasSub = false ∧ (s.reg.slot c (some b)).expLen.toNat = 2 then .expectingChecksum
        else s.ctx.state

/-- 42_framer.md section 3 (D11, D31): a selector with no registered slot is logged and the frame discarded. -/
def Obligations.UnregisteredSubcommandIsLoggedAndDiscarded : Prop :=
  ∀ (b : Byte) (c : Nat) (s : State), s.ctx.rxIdx = 1 → 1 < s.cfg.rxCap → s.ctx.defn.hasSub = true →
    s.ctx.curCmd = some c → (s.cfg.nSub ≤ b.toNat ∨ (s.reg.slot c (some b)).valid = false) →
    ∃ t, exec (.data b) s = .next t ∧ ErrorStep s t [] (.unrecognizedCommand c (some b))

/-- 42_framer.md section 3, 60_exceptions.md section 1 (D12): a payload byte that finds the buffer full is not stored;
the frame is logged as too long and discarded. -/
def Obligations.FullBufferIsFrameTooLong : Prop :=
  ∀ (b : Byte) (s : State), s.ctx.rxIdx = s.cfg.rxCap →
    ∃ t, exec (.data b) s = .next t ∧
      ErrorStep s t [] (.frameTooLong s.ctx.curCmd s.ctx.curSub s.cfg.rxCap)

/-- 42_framer.md section 4, `CHK` with the right byte, and 43_dispatcher.md, 44_transmitter.md: the handler is called
once, its output becomes TX, the response follows, and the state is WaitingAck. -/
def Obligations.RightChecksumCallsTheHandlerAndAnswers : Prop :=
  ∀ (s : State) (h : Nat) (r : HandlerResult), s.cfg.Legal → s.ctx.txBuf.wf →
    s.ctx.curCmd = some s.ctx.defn.cmd → s.ctx.curSub = s.ctx.defn.sub → s.ctx.defn.handler = some h →
    handlerReply s.handlers ⟨h, s.ctx.defn.cmd, s.ctx.curSub, s.ctx.rxBuf.bytes s.cfg.rxCap, s.ctx.rxIdx⟩ =
      .returns r → r.count ≤ s.cfg.txCap →
    ∃ t, exec (.chk s.ctx.chk) s = .next t ∧ SameOutsideContext s t ∧
      t.trace = s.trace ++
        .call ⟨h, s.ctx.defn.cmd, s.ctx.curSub, s.ctx.rxBuf.bytes s.cfg.rxCap, s.ctx.rxIdx⟩ ::
          responseEvents s.cfg (outByte r) r.count ∧
      t.ctx = { s.ctx with state := .waitingAck, txBuf := t.ctx.txBuf } ∧
      (∀ i, i < s.cfg.txCap → t.ctx.txBuf.read i = outByte r i) ∧
      (∀ i, s.cfg.txCap ≤ i → t.ctx.txBuf.read i = s.ctx.txBuf.read i) ∧ t.ctx.txBuf.wf

/-- 42_framer.md section 4, 60_exceptions.md section 1 (D13): a wrong checksum byte is logged with the payload dumped,
the context reset, and a NACK word sent exactly under the NACK policy. -/
def Obligations.WrongChecksumIsLoggedWithTheFrame : Prop :=
  ∀ (k : Byte) (s : State), k ≠ s.ctx.chk →
    ∃ t, exec (.chk k) s = .next t ∧
      ErrorStep s t [] (.checksumMismatch s.ctx.curCmd s.ctx.curSub
        ((List.range s.ctx.rxIdx).map s.ctx.rxBuf.read) k s.ctx.chk)

/-- 42_framer.md section 7: after an `ADDR.CMD` word the context depends on the configuration, the registry and the
command alone; nothing of what came before leaks. -/
def Obligations.AddressedCommandForgetsThePast : Prop :=
  ∀ (c : Nat) (s s' t t' : State), s.cfg = s'.cfg → s.reg = s'.reg →
    exec (.addrCmd c) s = .next t → exec (.addrCmd c) s' = .next t' → t.ctx = t'.ctx

/-- 42_framer.md section 5: from WaitingAck a step changes the context only for `HW.RESET`, `CTX.RESET` or an addressed
command word; so nothing else leaves it. -/
def Obligations.WaitingAckIsLeftOnlyByCommandOrReset : Prop :=
  ∀ (s t : State), s.ctx.state = .waitingAck → step s = .next t → t.ctx ≠ s.ctx →
    ∃ ev rest, s.inputs = ev :: rest ∧
      (ev = .hwReset ∨ ev = .ctxReset ∨
        ∃ n, ev = .rxWord n ∧ n / 256 % 2 = 1 ∧ n % 256 / 2 ^ s.cfg.cmdW = s.cfg.devAddr)

/-- 10_state.md section 4 item 6: a step that enters WaitingAck has called the latched handler and sent a whole
response, whose last word alone has the mode flag set. -/
def Obligations.WaitingAckIsEnteredWithAResponse : Prop :=
  ∀ (s t : State), Inv s → step s = .next t → s.ctx.state ≠ .waitingAck → t.ctx.state = .waitingAck →
    ∃ (call : HandlerCall) (payload : List Byte) (last : Byte),
      s.ctx.defn.handler = some call.handler ∧ payload.length ≤ s.cfg.txCap ∧
      t.trace = s.trace ++ .call call :: (payload.map (fun b : Byte => .tx (0#1 ++ b)) ++ [.tx (1#1 ++ last)])

/-- 70_reset_and_hazards.md section 3: a subcommand entry shorter than its selector never completes; every further
payload byte leaves it waiting, one byte longer, or ends it as too long. -/
def Obligations.ShortSubcommandEntryNeverCompletes : Prop :=
  ∀ (b : Byte) (s t : State), Inv s → s.ctx.state = .receivingData → s.ctx.defn.hasSub = false →
    s.ctx.defn.expLen.toNat < s.ctx.rxIdx → exec (.data b) s = .next t →
    (t.ctx.state = .receivingData ∧ t.ctx.defn = s.ctx.defn ∧ t.ctx.rxIdx = s.ctx.rxIdx + 1 ∧
        s.ctx.rxIdx < s.cfg.rxCap) ∨
      (s.ctx.rxIdx = s.cfg.rxCap ∧ ErrorStep s t [] (.frameTooLong s.ctx.curCmd s.ctx.curSub s.cfg.rxCap))

/-- 70_reset_and_hazards.md section 3: a definition longer than RX_CAP never completes; every further payload byte
leaves the frame waiting, or ends it as too long once the buffer is full. -/
def Obligations.OverlongEntryNeverCompletes : Prop :=
  ∀ (b : Byte) (s t : State), Inv s → s.ctx.state = .receivingData → s.ctx.defn.hasSub = false →
    s.cfg.rxCap < s.ctx.defn.expLen.toNat → exec (.data b) s = .next t →
    (t.ctx.state = .receivingData ∧ t.ctx.defn = s.ctx.defn ∧ t.ctx.rxIdx = s.ctx.rxIdx + 1 ∧
        s.ctx.rxIdx < s.cfg.rxCap) ∨
      (s.ctx.rxIdx = s.cfg.rxCap ∧ ErrorStep s t [] (.frameTooLong s.ctx.curCmd s.ctx.curSub s.cfg.rxCap))

/-! The Dispatcher and the Transmitter. -/

/-- 60_exceptions.md section 1: after an accepted checksum, codes that differ or a missing handler drop the frame; the
controller gets no response and no NACK, whatever the policy; the reset takes the state to Idle. That the reason is the
mismatch where both faults stand is the order of the tests, D25 (log 28). -/
def Obligations.InconsistentDispatchDropsTheFrame : Prop :=
  ∀ s : State,
    (s.ctx.curCmd ≠ some s.ctx.defn.cmd ∨ s.ctx.curSub ≠ s.ctx.defn.sub →
      ∃ t, exec (.chk s.ctx.chk) s = .next t ∧ t.ctx = Context.init ∧ SameOutsideContext s t ∧
        t.trace = s.trace ++ [.log (.dispatchInconsistency .mismatch s.ctx.curCmd s.ctx.curSub)]) ∧
    (s.ctx.curCmd = some s.ctx.defn.cmd → s.ctx.curSub = s.ctx.defn.sub → s.ctx.defn.handler = none →
      ∃ t, exec (.chk s.ctx.chk) s = .next t ∧ t.ctx = Context.init ∧ SameOutsideContext s t ∧
        t.trace = s.trace ++ [.log (.dispatchInconsistency .noHandler s.ctx.curCmd s.ctx.curSub)])

/-- 43_dispatcher.md, `DISPATCH` as an operation: the handler of a consistent context is called once and its response
sent; the state is left as it is. -/
def Obligations.DispatchCallsTheHandlerAndAnswers : Prop :=
  ∀ (s : State) (h : Nat) (r : HandlerResult), s.cfg.Legal → s.ctx.txBuf.wf →
    s.ctx.curCmd = some s.ctx.defn.cmd → s.ctx.curSub = s.ctx.defn.sub → s.ctx.defn.handler = some h →
    handlerReply s.handlers ⟨h, s.ctx.defn.cmd, s.ctx.curSub, s.ctx.rxBuf.bytes s.cfg.rxCap, s.ctx.rxIdx⟩ =
      .returns r → r.count ≤ s.cfg.txCap →
    ∃ t, exec .dispatch s = .next t ∧ SameOutsideContext s t ∧
      t.trace = s.trace ++
        .call ⟨h, s.ctx.defn.cmd, s.ctx.curSub, s.ctx.rxBuf.bytes s.cfg.rxCap, s.ctx.rxIdx⟩ ::
          responseEvents s.cfg (outByte r) r.count ∧
      t.ctx = { s.ctx with txBuf := t.ctx.txBuf } ∧
      (∀ i, i < s.cfg.txCap → t.ctx.txBuf.read i = outByte r i) ∧
      (∀ i, s.cfg.txCap ≤ i → t.ctx.txBuf.read i = s.ctx.txBuf.read i)

/-- 43_dispatcher.md, a response that does not fit (D12): the call stays in the trace, the frame is logged as too long,
nothing is transmitted. -/
def Obligations.TooLongResponseIsDropped : Prop :=
  ∀ (s : State) (h : Nat) (r : HandlerResult),
    s.ctx.curCmd = some s.ctx.defn.cmd → s.ctx.curSub = s.ctx.defn.sub → s.ctx.defn.handler = some h →
    handlerReply s.handlers ⟨h, s.ctx.defn.cmd, s.ctx.curSub, s.ctx.rxBuf.bytes s.cfg.rxCap, s.ctx.rxIdx⟩ =
      .returns r → s.cfg.txCap < r.count →
    ∃ t t', exec .dispatch s = .next t ∧ exec (.chk s.ctx.chk) s = .next t' ∧
      ErrorStep s t
        [.call ⟨h, s.ctx.defn.cmd, s.ctx.curSub, s.ctx.rxBuf.bytes s.cfg.rxCap, s.ctx.rxIdx⟩]
        (.frameTooLong s.ctx.curCmd s.ctx.curSub r.count) ∧
      ErrorStep s t'
        [.call ⟨h, s.ctx.defn.cmd, s.ctx.curSub, s.ctx.rxBuf.bytes s.cfg.rxCap, s.ctx.rxIdx⟩]
        (.frameTooLong s.ctx.curCmd s.ctx.curSub r.count)

/-- 43_dispatcher.md, a handler that never returns: a step with no result (log 6: the fault `handlerHang`). -/
def Obligations.HangingHandlerLeavesNoResult : Prop :=
  ∀ (s : State) (h : Nat),
    s.ctx.curCmd = some s.ctx.defn.cmd → s.ctx.curSub = s.ctx.defn.sub → s.ctx.defn.handler = some h →
    handlerReply s.handlers ⟨h, s.ctx.defn.cmd, s.ctx.curSub, s.ctx.rxBuf.bytes s.cfg.rxCap, s.ctx.rxIdx⟩ = .hangs →
    exec .dispatch s = .fault .handlerHang ∧ exec (.chk s.ctx.chk) s = .fault .handlerHang

/-- 43_dispatcher.md, exactly once and in order: a handler is called by no operation but `DISPATCH` and a `CHK` with
the right byte, at most once, first of all, and followed by words alone or by one LOG. -/
def Obligations.HandlerIsCalledOnceAndOnlyByAnAcceptedFrame : Prop :=
  ∀ (i : Instr) (s t : State) (evs : List Output) (c : HandlerCall),
    exec i s = .next t → t.trace = s.trace ++ evs → .call c ∈ evs →
    (i = .dispatch ∨ i = .chk s.ctx.chk) ∧ s.ctx.defn.handler = some c.handler ∧
      ((∃ ws : List Word9, ws ≠ [] ∧ evs = .call c :: ws.map .tx) ∨
        ∃ count, s.cfg.txCap < count ∧
          evs = [.call c, .log (.frameTooLong s.ctx.curCmd s.ctx.curSub count)])

/-- 43_dispatcher.md, what the handler is given: the codes of the frame, the payload followed by zeros up to the
capacity, and the payload length. -/
def Obligations.HandlerSeesThePayloadThenZeros : Prop :=
  ∀ (k : Byte) (s t : State) (evs : List Output) (c : HandlerCall), Inv s → s.ctx.state = .expectingChecksum →
    exec (.chk k) s = .next t → t.trace = s.trace ++ evs → .call c ∈ evs →
    s.ctx.curCmd = some c.cmd ∧ c.sub = s.ctx.curSub ∧ c.n = s.ctx.rxIdx ∧ c.n = s.ctx.defn.expLen.toNat ∧
      c.rx = (List.range s.ctx.rxIdx).map s.ctx.rxBuf.read ++ List.replicate (s.cfg.rxCap - s.ctx.rxIdx) 0x00

/-- 44_transmitter.md, `TRANSMIT` (D6, D32): the payload words, then the terminator; nothing else changes. An operand
above TX_CAP, which the operation does not have, is the fault of log 33. -/
def Obligations.TransmitSendsTheResponse : Prop :=
  ∀ (n : Nat) (s : State),
    (n ≤ s.cfg.txCap →
      exec (.transmit n) s = .next { s with trace := s.trace ++ responseEvents s.cfg s.ctx.txBuf.read n }) ∧
    (s.cfg.txCap < n → exec (.transmit n) s = .fault .bufferBounds)

/-- 44_transmitter.md R141: one mode-clear word for each `i` from 0 to `N-1`, in that order, carrying TX[i] unchanged;
none when `N = 0`; the words come before the one terminator. -/
def Obligations.PayloadWordsAreSentInOrder : Prop :=
  (∀ (b : Byte) (s : State), exec (.txData b) s = .next { s with trace := s.trace ++ [.tx (0#1 ++ b)] }) ∧
    ∀ (n : Nat) (s : State), n ≤ s.cfg.txCap →
      ∃ (t : State) (last : Byte), exec (.transmit n) s = .next t ∧
        t.trace = s.trace ++ (List.range n).map (fun i => .tx (0#1 ++ s.ctx.txBuf.read i)) ++ [.tx (1#1 ++ last)]

/-- 44_transmitter.md R142: a non-empty response that is not rejected ends in the mode-set word carrying the sum of the
`N` bytes modulo 256, once, after the last payload word; nothing is stored. -/
def Obligations.AcceptedResponseEndsInItsChecksum : Prop :=
  (∀ (k : Byte) (s : State), exec (.txChk k) s = .next { s with trace := s.trace ++ [.tx (1#1 ++ k)] }) ∧
    ∀ (n : Nat) (s : State), 0 < n → n ≤ s.cfg.txCap → s.ctx.txBuf.read 0 ≠ s.cfg.negSentinel →
      ∃ (payload : List Byte) (k : Byte),
        payload = (List.range n).map s.ctx.txBuf.read ∧ k.toNat = (payload.map BitVec.toNat).sum % 256 ∧
        exec (.transmit n) s =
          .next { s with trace := s.trace ++ payload.map (fun b : Byte => .tx (0#1 ++ b)) ++ [.tx (1#1 ++ k)] }

/-- 44_transmitter.md R143: an empty response that is not rejected is the one word `1 ++ ACK_CODE`. -/
def Obligations.EmptyAcceptedResponseIsTheAckWord : Prop :=
  ∀ s : State,
    exec .txAck s = .next { s with trace := s.trace ++ [.tx (1#1 ++ s.cfg.ackCode)] } ∧
      (rejected s.cfg s.ctx.txBuf = false →
        exec (.transmit 0) s = .next { s with trace := s.trace ++ [.tx (1#1 ++ s.cfg.ackCode)] })

/-- 44_transmitter.md, `TX.NACK`: a rejected response ends in `1 ++ NACK_CODE` for any `N`, after all its payload words,
which is D32 (log 27); a checksum mismatch sends that one word exactly under the NACK policy; no other error transmits
anything. The rejection test is kept abstract. -/
def Obligations.NackWordIsSentExactlyWhereTheSpecSays : Prop :=
  (∀ s : State, exec .txNack s = .next { s with trace := s.trace ++ [.tx (1#1 ++ s.cfg.nackCode)] }) ∧
    (∀ (n : Nat) (s : State), n ≤ s.cfg.txCap → rejected s.cfg s.ctx.txBuf = true →
      exec (.transmit n) s =
        .next { s with trace := s.trace ++ (List.range n).map (fun i => .tx (0#1 ++ s.ctx.txBuf.read i)) ++
          [.tx (1#1 ++ s.cfg.nackCode)] }) ∧
    (∀ (k : Byte) (s : State), k ≠ s.ctx.chk →
      ∃ t e, exec (.chk k) s = .next t ∧ e.kind = .checksumMismatch ∧
        t.trace = s.trace ++ [.log e] ++
          (if s.cfg.chkFailPolicy = .nack then [.tx (1#1 ++ s.cfg.nackCode)] else [])) ∧
    (∀ (i : Instr) (s t : State) (evs : List Output) (e : LogEntry) (w : Word9),
      exec i s = .next t → t.trace = s.trace ++ evs → .log e ∈ evs → e.kind ≠ .checksumMismatch → .tx w ∉ evs)

/-- 44_transmitter.md, count and order: a response is `N + 1` words, the last alone with the mode flag set. -/
def Obligations.ResponseIsCountPlusOneWords : Prop :=
  ∀ (n : Nat) (s : State), n ≤ s.cfg.txCap →
    ∃ (t : State) (ws : List Word9), exec (.transmit n) s = .next t ∧ t.trace = s.trace ++ ws.map .tx ∧
      ws.length = n + 1 ∧ t.ctx = s.ctx ∧ SameOutsideContext s t ∧
      ∀ j (h : j < ws.length), (ws[j]'h).getLsbD 8 = decide (j = n)

/-- 42_framer.md section 4 and 43_dispatcher.md: how the internal operations make up the received ones. `CHK` with the
right byte is `DISPATCH` in WaitingAck, a dispatch whose handler answers in range is `TRANSMIT` after the call and the
load of TX, and `DATA` advances the sum as `CHK.ADD` does. -/
def Obligations.InternalOperationsMakeUpTheReceivedOnes : Prop :=
  (∀ s : State, exec (.chk s.ctx.chk) s = exec .dispatch { s with ctx := { s.ctx with state := .waitingAck } }) ∧
    (∀ (s : State) (h : Nat) (r : HandlerResult),
      s.ctx.curCmd = some s.ctx.defn.cmd → s.ctx.curSub = s.ctx.defn.sub → s.ctx.defn.handler = some h →
      handlerReply s.handlers ⟨h, s.ctx.defn.cmd, s.ctx.curSub, s.ctx.rxBuf.bytes s.cfg.rxCap, s.ctx.rxIdx⟩ =
        .returns r → r.count ≤ s.cfg.txCap →
      ∃ tx : Memory, (s.ctx.txBuf.wf → ∀ i, i < s.cfg.txCap → tx.read i = outByte r i) ∧
        exec .dispatch s = exec (.transmit r.count) { s with
          ctx := { s.ctx with txBuf := tx }
          trace := s.trace ++
            [.call ⟨h, s.ctx.defn.cmd, s.ctx.curSub, s.ctx.rxBuf.bytes s.cfg.rxCap, s.ctx.rxIdx⟩] }) ∧
    (∀ (b v : Byte) (s t u : State), s.ctx.rxIdx < s.cfg.rxCap → s.ctx.defn.hasSub = false →
      exec (.data b) s = .next t → exec (.chkAdd s.ctx.chk b) s = .next u → u.result = .byte v → t.ctx.chk = v)

/-! The Command Registry. -/

/-- 41_registry.md section on subcommands (D9; log 10 for the policy): the parent slot becomes the sentinel, the
subcommand's slot its definition, and no other slot and nothing else changes. -/
def Obligations.SubcommandRegistrationWritesTwoSlots : Prop :=
  ∀ (c : Nat) (b len : Byte) (h : Option Nat) (s : State), s.reg.wf → c < 2 ^ s.cfg.cmdW →
    (∀ id ∈ h, id < 2 ^ s.cfg.hidW) → b.toNat < s.cfg.nSub →
    (s.ctx.state = .idle ∨ s.cfg.registerPolicy = .perform) →
    ∃ t, exec (.registerSub c b len h) s = .next t ∧ SameOutsideRegistry s t ∧ t.reg.wf ∧
      t.reg.slot c none = ⟨true, c, none, 0, true, none⟩ ∧
      t.reg.slot c (some b) = ⟨true, c, some b, len, false, h⟩ ∧
      ∀ c' s', (c', s') ≠ (c, none) → (c', s') ≠ (c, some b) → t.reg.slot c' s' = s.reg.slot c' s'

/-- 41_registry.md, a command without subcommands (log 10 for the policy): its slot holds the definition, subcommand
entries stay stored, and no other slot and nothing else changes. -/
def Obligations.PlainRegistrationWritesOneSlot : Prop :=
  ∀ (c : Nat) (len : Byte) (h : Option Nat) (s : State), s.reg.wf → c < 2 ^ s.cfg.cmdW →
    (∀ id ∈ h, id < 2 ^ s.cfg.hidW) → (s.ctx.state = .idle ∨ s.cfg.registerPolicy = .perform) →
    ∃ t, exec (.registerNosub c len h) s = .next t ∧ SameOutsideRegistry s t ∧ t.reg.wf ∧
      t.reg.slot c none = ⟨true, c, none, len, false, h⟩ ∧
      ∀ c' s', (c', s') ≠ (c, none) → t.reg.slot c' s' = s.reg.slot c' s'

/-- 41_registry.md, re-registration: the last registration wins silently, whatever the slot held: nothing is logged,
nothing is returned; and no operation but `HW.RESET` takes a registration back. That the rewritten sentinel's length is
0 is D9 (log 14). -/
def Obligations.LastRegistrationWins : Prop :=
  (∀ (c : Nat) (len len' : Byte) (h h' : Option Nat) (s t t' : State), s.reg.wf →
    exec (.registerNosub c len h) s = .next t → exec (.registerNosub c len' h') t = .next t' →
    t'.reg.slot c none = ⟨true, c, none, len', false, h'⟩ ∧ t'.trace = s.trace ∧ t'.result = s.result) ∧
  (∀ (c : Nat) (b len len' : Byte) (h h' : Option Nat) (s t t' : State), s.reg.wf → b.toNat < s.cfg.nSub →
    exec (.registerSub c b len h) s = .next t → exec (.registerSub c b len' h') t = .next t' →
    t'.reg.slot c (some b) = ⟨true, c, some b, len', false, h'⟩ ∧
      t'.reg.slot c none = ⟨true, c, none, 0, true, none⟩ ∧ t'.trace = s.trace ∧ t'.result = s.result) ∧
  (∀ (i : Instr) (c : Nat) (sub : Option Byte) (s t : State), s.reg.wf → i ≠ .hwReset →
    (s.reg.slot c sub).valid = true → exec i s = .next t → (t.reg.slot c sub).valid = true)

/-- 41_registry.md, operands out of range: a subcommand with no slot writes nothing, neither slot (D31). That the step
then answers the same state, where D31 says that a model should treat it as refused, is the model's choice (log 11), and
so is the policy `perform` (log 10). -/
def Obligations.RegistrationWithoutASlotWritesNothing : Prop :=
  ∀ (c : Nat) (b len : Byte) (h : Option Nat) (s : State), c < 2 ^ s.cfg.cmdW → (∀ id ∈ h, id < 2 ^ s.cfg.hidW) →
    s.cfg.nSub ≤ b.toNat → (s.ctx.state = .idle ∨ s.cfg.registerPolicy = .perform) →
    exec (.registerSub c b len h) s = .next s

/-- 41_registry.md, `REGISTER` while traffic is active (D28; log 10), and operands that do not fit their widths
(log 12): refused by name. -/
def Obligations.RegistrationIsRefusedInTraffic : Prop :=
  ∀ (c : Nat) (b len : Byte) (h : Option Nat) (s : State),
    (c < 2 ^ s.cfg.cmdW → (∀ id ∈ h, id < 2 ^ s.cfg.hidW) → s.ctx.state ≠ .idle → s.cfg.registerPolicy = .refuse →
      exec (.registerSub c b len h) s = .refused .registerOutsideIdle ∧
        exec (.registerNosub c len h) s = .refused .registerOutsideIdle) ∧
    ((2 ^ s.cfg.cmdW ≤ c ∨ ∃ id ∈ h, 2 ^ s.cfg.hidW ≤ id) →
      exec (.registerSub c b len h) s = .refused .operandWidth ∧
        exec (.registerNosub c len h) s = .refused .operandWidth)

/-- 10_state.md R24: only `REGISTER` and `HW.RESET` write the registry; no received word and no `CTX.RESET` does. -/
def Obligations.OnlyRegisterAndHardwareResetWriteTheRegistry : Prop :=
  (∀ (i : Instr) (s t : State), exec i s = .next t → t.reg ≠ s.reg →
    i = .hwReset ∨ (∃ c b len h, i = .registerSub c b len h) ∨ ∃ c len h, i = .registerNosub c len h) ∧
  ∀ (s t : State) (rest : List InputEvent), step s = .next t →
    ((∃ n, s.inputs = .rxWord n :: rest) ∨ s.inputs = .ctxReset :: rest) → t.reg = s.reg

/-- 41_registry.md, `LOOKUP` (D31): the slot where it is registered and in the table, else not found; the registry and
everything else but the answer is unchanged. -/
def Obligations.LookupAnswersTheSlot : Prop :=
  ∀ (c : Nat) (sub : Option Byte) (s : State),
    ((s.reg.slot c sub).valid = true → (∀ b ∈ sub, b.toNat < s.cfg.nSub) →
      exec (.lookup c sub) s = .next { s with result := .found (some (s.reg.slot c sub)) }) ∧
    ((s.reg.slot c sub).valid = false ∨ (∃ b ∈ sub, s.cfg.nSub ≤ b.toNat) →
      exec (.lookup c sub) s = .next { s with result := .found none })

/-! The Checksum Engine. -/

/-- 40_checksum.md, `CHK8`: the sum modulo 256, 0x00 for no bytes, blind to order; the block's state is unchanged. -/
def Obligations.ChecksumIsTheSumModulo256 : Prop :=
  (∀ (bytes : List Byte) (s : State), ∃ v : Byte,
    exec (.chk8 bytes) s = .next { s with result := .byte v } ∧ v.toNat = (bytes.map BitVec.toNat).sum % 256) ∧
  (∀ s : State, exec (.chk8 []) s = .next { s with result := .byte 0x00 }) ∧
  ∀ (xs ys : List Byte) (s : State), xs.Perm ys → exec (.chk8 xs) s = exec (.chk8 ys) s

/-- 40_checksum.md, `CHK.ADD`: the sum modulo 256; applied to the bytes in turn from 0x00 it gives `CHK8` of them; and
one byte more, from what `CHK8` answered, gives `CHK8` of the longer list. -/
def Obligations.AccumulatingGivesTheChecksum : Prop :=
  (∃ add : Byte → Byte → Byte,
    (∀ (acc b : Byte) (s : State), exec (.chkAdd acc b) s = .next { s with result := .byte (add acc b) } ∧
      (add acc b).toNat = (acc.toNat + b.toNat) % 256) ∧
    ∀ (bytes : List Byte) (s : State),
      exec (.chk8 bytes) s = .next { s with result := .byte (bytes.foldl add 0x00) }) ∧
  ∀ (bytes : List Byte) (b acc v : Byte) (s t u : State),
    exec (.chk8 bytes) s = .next t → t.result = .byte acc → exec (.chkAdd acc b) s = .next u → u.result = .byte v →
    exec (.chk8 (bytes ++ [b])) s = .next u

/-- 40_checksum.md R92: the verdict is equality of all eight bits, nothing is raised, exactly one byte is accepted, and
for an empty payload (sum 0x00) that byte is 0x00. -/
def Obligations.VerifyAcceptsExactlyTheSum : Prop :=
  (∀ (acc k : Byte) (s : State), ∃ v : Bool,
    exec (.chkVerify acc k) s = .next { s with result := .verdict v } ∧ (v = true ↔ k = acc)) ∧
  (∀ (acc : Byte) (s : State), ∃ k : Byte, ∀ k' : Byte,
    exec (.chkVerify acc k') s = .next { s with result := .verdict (decide (k' = k)) }) ∧
  (∀ (k : Byte) (s : State), exec (.chkVerify 0x00 k) s = .next { s with result := .verdict (decide (k = 0x00)) }) ∧
  ∀ (k : Byte) (s t : State), exec (.chk k) s = .next t →
    ((∃ e evs, t.trace = s.trace ++ .log e :: evs ∧ e.kind = .checksumMismatch) ↔ k ≠ s.ctx.chk)

/-! Control operations. -/

/-- 70_reset_and_hazards.md section 1: the value of every piece of state after each reset (the zeros are D20, log 13, the
empty registry D21, log 24); the configuration is unchanged. Of a registry slot after `HW.RESET` the valid bit is what is
stated. That the model's own fields, trace, events to come, handlers and result, stay is the model's choice (log 34). -/
def Obligations.ResetValuesOfEveryField : Prop :=
  ∀ s : State, ∃ t u, exec .hwReset s = .next t ∧ exec .ctxReset s = .next u ∧
    (∀ c sub, (t.reg.slot c sub).valid = false) ∧ u.reg = s.reg ∧ t.cfg = s.cfg ∧ u.cfg = s.cfg ∧
    ∀ v, v = t ∨ v = u →
      v.ctx.state = .idle ∧ v.ctx.curCmd = none ∧ v.ctx.curSub = none ∧
      v.ctx.defn = ⟨false, 0, none, 0, false, none⟩ ∧ (∀ a, v.ctx.rxBuf.read a = 0x00) ∧ v.ctx.rxIdx = 0 ∧
      v.ctx.chk = 0x00 ∧ (∀ a, v.ctx.txBuf.read a = 0x00) ∧
      v.trace = s.trace ∧ v.inputs = s.inputs ∧ v.handlers = s.handlers ∧ v.result = s.result

/-- 45_control.md, resets are idempotent and total: one reset after the same reset changes nothing, from any state. -/
def Obligations.ResetsAreIdempotent : Prop :=
  ∀ s : State, ∃ t u,
    exec .ctxReset s = .next t ∧ exec .ctxReset t = .next t ∧ t = { s with ctx := Context.init } ∧
    exec .hwReset s = .next u ∧ exec .hwReset u = .next u ∧ exec .ctxReset u = .next u

/-- 45_control.md (D21): after `HW.RESET` every command is unrecognized. -/
def Obligations.HardwareResetUnregistersEveryCommand : Prop :=
  ∀ (s t : State), exec .hwReset s = .next t →
    ∀ c, ∃ u, exec (.addrCmd c) t = .next u ∧ ErrorStep t u [] (.unrecognizedCommand c none)

/-- 45_control.md, coinciding strobes (D22): `HW.RESET` discards the others, whichever are raised; otherwise those
raised act in the order `CTX.RESET`, `REGISTER`, `RXWORD`. One clause for each set of strobes. -/
def Obligations.CoincidingStrobesAreOrdered : Prop :=
  (∀ (a : Bool) (r : Option RegisterRequest) (w : Option Nat), strobeEvents ⟨true, a, r, w⟩ = [.hwReset]) ∧
  ∀ (q : RegisterRequest) (n : Nat),
    strobeEvents ⟨false, true, some q, some n⟩ = [.ctxReset, .register q.c q.s q.len q.h, .rxWord n] ∧
    strobeEvents ⟨false, true, some q, none⟩ = [.ctxReset, .register q.c q.s q.len q.h] ∧
    strobeEvents ⟨false, true, none, some n⟩ = [.ctxReset, .rxWord n] ∧
    strobeEvents ⟨false, true, none, none⟩ = [.ctxReset] ∧
    strobeEvents ⟨false, false, some q, some n⟩ = [.register q.c q.s q.len q.h, .rxWord n] ∧
    strobeEvents ⟨false, false, some q, none⟩ = [.register q.c q.s q.len q.h] ∧
    strobeEvents ⟨false, false, none, some n⟩ = [.rxWord n] ∧
    strobeEvents ⟨false, false, none, none⟩ = []

/-! Rules about the whole machine. -/

/-- The invariant of Sys2Proof/Safety.lean holds after power-on (log 2: at the model's configuration). -/
def Obligations.InvariantHoldsAtReset : Prop := Inv State.reset

/-- 10_state.md section 4, for every state that meets the invariant and every event: a step keeps it. -/
def Obligations.InvariantIsKeptByEveryStep : Prop := ∀ s t : State, Inv s → step s = .next t → Inv t

/-- 70_reset_and_hazards.md section 2, the duties: where the host registers only in Idle and with operands that fit,
and no handler hangs, every step has a result. -/
def Obligations.StepNeverStopsWhenTheEnvironmentKeepsItsDuties : Prop :=
  ∀ s : State, Inv s → HostDuty s → HandlersReturn s → SafeStep s

/-- 00_scope.md section 3: a step takes one event and only appends to the outputs; configuration and handlers stay. -/
def Obligations.StepTakesOneEventAndAppendsOutputs : Prop :=
  ∀ s t : State, step s = .next t →
    t.cfg = s.cfg ∧ t.handlers = s.handlers ∧ t.result = s.result ∧ t.inputs = s.inputs.tail ∧
      ∃ evs, t.trace = s.trace ++ evs

/-- 60_exceptions.md section 1: whatever the operation, a step that logs an error logs one, leaves the context initial
and the registry alone, and emits nothing else but a call before and the policy's NACK word after. -/
def Obligations.EveryErrorIsLoggedOnceAndRecovered : Prop :=
  ∀ (i : Instr) (s t : State) (evs : List Output) (e : LogEntry),
    exec i s = .next t → t.trace = s.trace ++ evs → .log e ∈ evs →
    ∃ pre, ErrorStep s t pre e ∧ (pre = [] ∨ ∃ c, pre = [.call c] ∧ e.kind = .frameTooLong)

/-- 60_exceptions.md section 1: what is not an error is handled without a log: a word for another device, a data word in
Idle or WaitingAck, a command word that cuts a frame short, a rejection, a `CTX.RESET`. That the rejection test is the
same for every count is D6 (log 26). -/
def Obligations.WhatIsNotAnErrorIsNotLogged : Prop :=
  (∀ (addr low : Nat) (s : State), exec (.addrOther addr low) s = .next s) ∧
  (∀ (b : Byte) (s : State), exec (.dataIgn b) s = .next s) ∧
  (∀ (c : Nat) (s : State), (s.reg.slot c none).valid = true →
    ∃ t, exec (.addrCmd c) s = .next t ∧ t.trace = s.trace) ∧
  (∀ (s t : State) (r : HandlerResult) (h : Nat), s.cfg.Legal → s.ctx.txBuf.wf → s.ctx.defn.handler = some h →
    s.ctx.curCmd = some s.ctx.defn.cmd → s.ctx.curSub = s.ctx.defn.sub →
    handlerReply s.handlers ⟨h, s.ctx.defn.cmd, s.ctx.curSub, s.ctx.rxBuf.bytes s.cfg.rxCap, s.ctx.rxIdx⟩ =
      .returns r → r.count ≤ s.cfg.txCap → outByte r 0 = s.cfg.negSentinel → exec (.chk s.ctx.chk) s = .next t →
    t.ctx.state = .waitingAck ∧ (∀ e, .log e ∉ t.trace.drop s.trace.length) ∧
      t.trace.getLast? = some (.tx (1#1 ++ s.cfg.nackCode))) ∧
  (∀ s : State, ∃ t, exec .ctxReset s = .next t ∧ t.trace = s.trace)

/-- 42_framer.md section 7 property 1: whatever the framer was doing, an addressed frame for a plain registered command
of the right length and sum ends in WaitingAck with the handler called exactly once and answered. That a frame of
length 0 needs no payload word is D10 (log 15); the response rests on D6 (log 26) and D32 (log 27). -/
def Obligations.CompleteFrameReachesItsHandlerExactlyOnce : Prop :=
  ∀ (s : State) (c h : Nat) (payload : List Byte) (rest : List InputEvent) (r : HandlerResult),
    Inv s → c < s.cfg.nCmd → (s.reg.slot c none).valid = true → (s.reg.slot c none).hasSub = false →
    (s.reg.slot c none).expLen.toNat = payload.length → (s.reg.slot c none).handler = some h →
    payload.length ≤ s.cfg.rxCap →
    s.inputs = frameEvents s.cfg c payload (BitVec.ofNat 8 (payload.map BitVec.toNat).sum) ++ rest →
    handlerReply s.handlers
      ⟨h, c, none, payload ++ List.replicate (s.cfg.rxCap - payload.length) 0x00, payload.length⟩ = .returns r →
    r.count ≤ s.cfg.txCap →
    ∃ t, Host.Core.run core (payload.length + 2) s = .next t ∧ t.ctx.state = .waitingAck ∧ t.inputs = rest ∧
      t.trace = s.trace ++
        .call ⟨h, c, none, payload ++ List.replicate (s.cfg.rxCap - payload.length) 0x00, payload.length⟩ ::
          responseEvents s.cfg (outByte r) r.count

/-- 42_framer.md section 7 property 3: the same frame with any other checksum byte calls no handler, is logged once and
leaves the framer Idle. A frame of length 0 is D10 (log 15), the NACK word under the policy D13 (log 18). -/
def Obligations.FrameWithAWrongSumCallsNoHandler : Prop :=
  ∀ (s : State) (c : Nat) (payload : List Byte) (k : Byte) (rest : List InputEvent),
    Inv s → c < s.cfg.nCmd → (s.reg.slot c none).valid = true → (s.reg.slot c none).hasSub = false →
    (s.reg.slot c none).expLen.toNat = payload.length → payload.length ≤ s.cfg.rxCap →
    k.toNat ≠ (payload.map BitVec.toNat).sum % 256 → s.inputs = frameEvents s.cfg c payload k ++ rest →
    ∃ t, Host.Core.run core (payload.length + 2) s = .next t ∧ t.ctx = Context.init ∧ t.inputs = rest ∧
      t.trace = s.trace ++
        [.log (.checksumMismatch (some c) none payload k (BitVec.ofNat 8 (payload.map BitVec.toNat).sum))] ++
        (if s.cfg.chkFailPolicy = .nack then [.tx (1#1 ++ s.cfg.nackCode)] else [])

/-- 95_test_vectors.md S5 for every registration: a frame whose second payload byte is a registered subcommand needs
exactly that subcommand's number of payload bytes, and then reaches that subcommand's handler once. A length of 0 or 1 is
Obligations.ShortSubcommandEntryNeverCompletes; the response rests on D6 (log 26) and D32 (log 27). -/
def Obligations.SubcommandFrameTakesTheSubcommandsLength : Prop :=
  ∀ (s : State) (c h : Nat) (p0 sel : Byte) (tail : List Byte) (rest : List InputEvent) (r : HandlerResult),
    Inv s → c < s.cfg.nCmd → (s.reg.slot c none).valid = true → (s.reg.slot c none).hasSub = true →
    sel.toNat < s.cfg.nSub → (s.reg.slot c (some sel)).valid = true →
    (s.reg.slot c (some sel)).expLen.toNat = tail.length + 2 → (s.reg.slot c (some sel)).handler = some h →
    tail.length + 2 ≤ s.cfg.rxCap →
    s.inputs = frameEvents s.cfg c (p0 :: sel :: tail)
      (BitVec.ofNat 8 ((p0 :: sel :: tail).map BitVec.toNat).sum) ++ rest →
    handlerReply s.handlers
      ⟨h, c, some sel, (p0 :: sel :: tail) ++ List.replicate (s.cfg.rxCap - (tail.length + 2)) 0x00,
        tail.length + 2⟩ = .returns r →
    r.count ≤ s.cfg.txCap →
    ∃ t, Host.Core.run core (tail.length + 4) s = .next t ∧ t.ctx.state = .waitingAck ∧ t.inputs = rest ∧
      t.trace = s.trace ++
        .call ⟨h, c, some sel, (p0 :: sel :: tail) ++ List.replicate (s.cfg.rxCap - (tail.length + 2)) 0x00,
          tail.length + 2⟩ :: responseEvents s.cfg (outByte r) r.count
end

