-- ==== Sys2Proof/Laws/Checksum.lean ====
section
/-! SUPPORT. The checksum arithmetic (40_checksum.md R90, R91): the running sum is the checksum of the bytes so far. -/

namespace Sys2Proof.Machine

open Sys2Proof

@[simp] theorem checksum_nil : checksum [] = 0x00 := rfl

theorem checksumAdd_eq_add (acc b : Byte) : checksumAdd acc b = acc + b := by
  apply BitVec.eq_of_toNat_eq; simp [checksumAdd]

theorem checksum_append (xs ys : List Byte) : checksum (xs ++ ys) = checksum xs + checksum ys := by
  apply BitVec.eq_of_toNat_eq; simp [checksum]

/-- One more byte: `chk_add` of the sum so far. -/
theorem checksum_snoc (xs : List Byte) (b : Byte) : checksum (xs ++ [b]) = checksumAdd (checksum xs) b := by
  rw [checksum_append, checksumAdd_eq_add]
  congr 1
  apply BitVec.eq_of_toNat_eq; simp [checksum]

/-- Adding bytes in turn to the sum of the bytes before them. -/
theorem foldl_checksumAdd (xs ys : List Byte) : ys.foldl checksumAdd (checksum xs) = checksum (xs ++ ys) := by
  induction ys generalizing xs with
  | nil => rw [List.append_nil, List.foldl_nil]
  | cons b bs ih => rw [List.foldl_cons, ← checksum_snoc, ih, List.append_assoc, List.singleton_append]

@[simp] theorem checksumVerify_eq_true_iff (acc k : Byte) : checksumVerify acc k = true ↔ k = acc := by
  simp [checksumVerify]

end Sys2Proof.Machine
end

