-- ==== Sys2Proof/Laws/State.lean ====
section
/-! SUPPORT. One lemma per field per update of the state, true by rfl. -/

namespace Sys2Proof.Machine

open Sys2Proof

section
variable (s : State) (evs : List Output) (c : Context) (r : Registry) (v : OpResult) (st : FsmState)

@[simp] theorem State.emit_cfg : (s.emit evs).cfg = s.cfg := rfl
@[simp] theorem State.emit_reg : (s.emit evs).reg = s.reg := rfl
@[simp] theorem State.emit_ctx : (s.emit evs).ctx = s.ctx := rfl
@[simp] theorem State.emit_handlers : (s.emit evs).handlers = s.handlers := rfl
@[simp] theorem State.emit_inputs : (s.emit evs).inputs = s.inputs := rfl
@[simp] theorem State.emit_trace : (s.emit evs).trace = s.trace ++ evs := rfl
@[simp] theorem State.emit_result : (s.emit evs).result = s.result := rfl

@[simp] theorem State.withCtx_cfg : (s.withCtx c).cfg = s.cfg := rfl
@[simp] theorem State.withCtx_reg : (s.withCtx c).reg = s.reg := rfl
@[simp] theorem State.withCtx_ctx : (s.withCtx c).ctx = c := rfl
@[simp] theorem State.withCtx_handlers : (s.withCtx c).handlers = s.handlers := rfl
@[simp] theorem State.withCtx_inputs : (s.withCtx c).inputs = s.inputs := rfl
@[simp] theorem State.withCtx_trace : (s.withCtx c).trace = s.trace := rfl
@[simp] theorem State.withCtx_result : (s.withCtx c).result = s.result := rfl

@[simp] theorem State.withReg_cfg : (s.withReg r).cfg = s.cfg := rfl
@[simp] theorem State.withReg_reg : (s.withReg r).reg = r := rfl
@[simp] theorem State.withReg_ctx : (s.withReg r).ctx = s.ctx := rfl
@[simp] theorem State.withReg_handlers : (s.withReg r).handlers = s.handlers := rfl
@[simp] theorem State.withReg_inputs : (s.withReg r).inputs = s.inputs := rfl
@[simp] theorem State.withReg_trace : (s.withReg r).trace = s.trace := rfl
@[simp] theorem State.withReg_result : (s.withReg r).result = s.result := rfl

@[simp] theorem State.withResult_cfg : (s.withResult v).cfg = s.cfg := rfl
@[simp] theorem State.withResult_reg : (s.withResult v).reg = s.reg := rfl
@[simp] theorem State.withResult_ctx : (s.withResult v).ctx = s.ctx := rfl
@[simp] theorem State.withResult_handlers : (s.withResult v).handlers = s.handlers := rfl
@[simp] theorem State.withResult_inputs : (s.withResult v).inputs = s.inputs := rfl
@[simp] theorem State.withResult_trace : (s.withResult v).trace = s.trace := rfl
@[simp] theorem State.withResult_result : (s.withResult v).result = v := rfl

@[simp] theorem State.withPhase_cfg : (s.withPhase st).cfg = s.cfg := rfl
@[simp] theorem State.withPhase_reg : (s.withPhase st).reg = s.reg := rfl
@[simp] theorem State.withPhase_ctx : (s.withPhase st).ctx = { s.ctx with state := st } := rfl
@[simp] theorem State.withPhase_handlers : (s.withPhase st).handlers = s.handlers := rfl
@[simp] theorem State.withPhase_inputs : (s.withPhase st).inputs = s.inputs := rfl
@[simp] theorem State.withPhase_trace : (s.withPhase st).trace = s.trace := rfl
@[simp] theorem State.withPhase_result : (s.withPhase st).result = s.result := rfl

@[simp] theorem contextReset_cfg : (contextReset s).cfg = s.cfg := rfl
@[simp] theorem contextReset_reg : (contextReset s).reg = s.reg := rfl
@[simp] theorem contextReset_ctx : (contextReset s).ctx = Context.init := rfl
@[simp] theorem contextReset_handlers : (contextReset s).handlers = s.handlers := rfl
@[simp] theorem contextReset_inputs : (contextReset s).inputs = s.inputs := rfl
@[simp] theorem contextReset_trace : (contextReset s).trace = s.trace := rfl
@[simp] theorem contextReset_result : (contextReset s).result = s.result := rfl
end

section
variable (s : State) (e : LogEntry)

@[simp] theorem raise_cfg : (raise e s).cfg = s.cfg := rfl
@[simp] theorem raise_reg : (raise e s).reg = s.reg := rfl
@[simp] theorem raise_ctx : (raise e s).ctx = Context.init := rfl
@[simp] theorem raise_handlers : (raise e s).handlers = s.handlers := rfl
@[simp] theorem raise_inputs : (raise e s).inputs = s.inputs := rfl
@[simp] theorem raise_trace : (raise e s).trace = s.trace ++ [.log e] ++ raiseWords s.cfg e := rfl
@[simp] theorem raise_result : (raise e s).result = s.result := rfl
end

section
variable (s : State) (c : Nat) (d : Definition) (b : Byte) (n : Nat) (out : List Byte)

@[simp] theorem latchCommand_ctx :
    (latchCommand c d s).ctx = { s.ctx with curCmd := some c, defn := d, state := .receivingData } := rfl
@[simp] theorem latchCommand_cfg : (latchCommand c d s).cfg = s.cfg := rfl
@[simp] theorem latchCommand_reg : (latchCommand c d s).reg = s.reg := rfl
@[simp] theorem latchCommand_handlers : (latchCommand c d s).handlers = s.handlers := rfl
@[simp] theorem latchCommand_inputs : (latchCommand c d s).inputs = s.inputs := rfl
@[simp] theorem latchCommand_trace : (latchCommand c d s).trace = s.trace := rfl
@[simp] theorem latchCommand_result : (latchCommand c d s).result = s.result := rfl

@[simp] theorem latchSubcommand_ctx :
    (latchSubcommand b d s).ctx = { s.ctx with curSub := some b, defn := d } := rfl
@[simp] theorem latchSubcommand_cfg : (latchSubcommand b d s).cfg = s.cfg := rfl
@[simp] theorem latchSubcommand_reg : (latchSubcommand b d s).reg = s.reg := rfl
@[simp] theorem latchSubcommand_handlers : (latchSubcommand b d s).handlers = s.handlers := rfl
@[simp] theorem latchSubcommand_inputs : (latchSubcommand b d s).inputs = s.inputs := rfl
@[simp] theorem latchSubcommand_trace : (latchSubcommand b d s).trace = s.trace := rfl
@[simp] theorem latchSubcommand_result : (latchSubcommand b d s).result = s.result := rfl

@[simp] theorem storePayload_ctx :
    (storePayload b s).ctx = { s.ctx with
      rxBuf := s.ctx.rxBuf.write s.ctx.rxIdx b
      rxIdx := s.ctx.rxIdx + 1
      chk := checksumAdd s.ctx.chk b } := rfl
@[simp] theorem storePayload_cfg : (storePayload b s).cfg = s.cfg := rfl
@[simp] theorem storePayload_reg : (storePayload b s).reg = s.reg := rfl
@[simp] theorem storePayload_handlers : (storePayload b s).handlers = s.handlers := rfl
@[simp] theorem storePayload_inputs : (storePayload b s).inputs = s.inputs := rfl
@[simp] theorem storePayload_trace : (storePayload b s).trace = s.trace := rfl
@[simp] theorem storePayload_result : (storePayload b s).result = s.result := rfl

@[simp] theorem loadOutput_ctx :
    (loadOutput out s).ctx = { s.ctx with txBuf := s.ctx.txBuf.writeBytes 0 (outputArray s.cfg out) } := rfl
@[simp] theorem loadOutput_cfg : (loadOutput out s).cfg = s.cfg := rfl
@[simp] theorem loadOutput_reg : (loadOutput out s).reg = s.reg := rfl
@[simp] theorem loadOutput_handlers : (loadOutput out s).handlers = s.handlers := rfl
@[simp] theorem loadOutput_inputs : (loadOutput out s).inputs = s.inputs := rfl
@[simp] theorem loadOutput_trace : (loadOutput out s).trace = s.trace := rfl
@[simp] theorem loadOutput_result : (loadOutput out s).result = s.result := rfl

@[simp] theorem transmitResponse_ctx : (transmitResponse n s).ctx = s.ctx := rfl
@[simp] theorem transmitResponse_cfg : (transmitResponse n s).cfg = s.cfg := rfl
@[simp] theorem transmitResponse_reg : (transmitResponse n s).reg = s.reg := rfl
@[simp] theorem transmitResponse_handlers : (transmitResponse n s).handlers = s.handlers := rfl
@[simp] theorem transmitResponse_inputs : (transmitResponse n s).inputs = s.inputs := rfl
@[simp] theorem transmitResponse_trace :
    (transmitResponse n s).trace = s.trace ++ (responseWords s.cfg s.ctx.txBuf n).map Output.tx := rfl
@[simp] theorem transmitResponse_result : (transmitResponse n s).result = s.result := rfl
end

section
variable (s : State)

/-- `Complete()` writes `ctx.state` and nothing else. -/
theorem complete_eq :
    complete s = s.withPhase (if s.ctx.completes then .expectingChecksum else s.ctx.state) := by
  unfold complete; split <;> rfl

@[simp] theorem complete_cfg : (complete s).cfg = s.cfg := by rw [complete_eq]; rfl
@[simp] theorem complete_reg : (complete s).reg = s.reg := by rw [complete_eq]; rfl
@[simp] theorem complete_ctx :
    (complete s).ctx = { s.ctx with
      state := if s.ctx.completes then .expectingChecksum else s.ctx.state } := by rw [complete_eq]; rfl
@[simp] theorem complete_handlers : (complete s).handlers = s.handlers := by rw [complete_eq]; rfl
@[simp] theorem complete_inputs : (complete s).inputs = s.inputs := by rw [complete_eq]; rfl
@[simp] theorem complete_trace : (complete s).trace = s.trace := by rw [complete_eq]; rfl
@[simp] theorem complete_result : (complete s).result = s.result := by rw [complete_eq]; rfl
end

end Sys2Proof.Machine
end

