-- ==== Sys2Proof/Laws/Exec.lean ====
section
/-! SUPPORT. What each shared operation can do, said once: if it answers a next state, then one of the cases named
holds. -/

namespace Sys2Proof.Machine

open Sys2Proof

variable {s t : State}

/-- The context a dispatched frame leaves when its handler answers `r` (43_dispatcher.md R131, R133). -/
theorem finishDispatch_of_le {r : HandlerResult} (h : r.count ≤ s.cfg.txCap) :
    finishDispatch r s = transmitResponse r.count (loadOutput r.out s) := by
  unfold finishDispatch; rw [if_neg (by omega)]

theorem finishDispatch_of_lt {r : HandlerResult} (h : s.cfg.txCap < r.count) :
    finishDispatch r s = raise (.frameTooLong s.ctx.curCmd s.ctx.curSub r.count) s := by
  unfold finishDispatch; rw [if_pos h]

theorem invokeHandler_next {h cmd : Nat} (hn : invokeHandler h cmd s = .next t) :
    ∃ r, handlerReply s.handlers (handlerCall s h cmd) = .returns r ∧
      t = finishDispatch r (s.emit [.call (handlerCall s h cmd)]) := by
  unfold invokeHandler at hn
  cases hr : handlerReply s.handlers (handlerCall s h cmd) with
  | hangs => rw [hr] at hn; cases hn
  | returns r => rw [hr] at hn; cases hn; exact ⟨r, rfl, rfl⟩

/-- The three ways a dispatch can end (43_dispatcher.md R131). -/
theorem dispatchFrame_next (hn : dispatchFrame s = .next t) :
    ((s.ctx.curCmd ≠ some s.ctx.defn.cmd ∨ s.ctx.curSub ≠ s.ctx.defn.sub) ∧
        t = raise (.dispatchInconsistency .mismatch s.ctx.curCmd s.ctx.curSub) s) ∨
    ((s.ctx.curCmd = some s.ctx.defn.cmd ∧ s.ctx.curSub = s.ctx.defn.sub) ∧ s.ctx.defn.handler = none ∧
        t = raise (.dispatchInconsistency .noHandler s.ctx.curCmd s.ctx.curSub) s) ∨
    ((s.ctx.curCmd = some s.ctx.defn.cmd ∧ s.ctx.curSub = s.ctx.defn.sub) ∧ ∃ h r, s.ctx.defn.handler = some h ∧
        handlerReply s.handlers (handlerCall s h s.ctx.defn.cmd) = .returns r ∧
        t = finishDispatch r (s.emit [.call (handlerCall s h s.ctx.defn.cmd)])) := by
  unfold dispatchFrame at hn
  by_cases hm : s.ctx.curCmd ≠ some s.ctx.defn.cmd ∨ s.ctx.curSub ≠ s.ctx.defn.sub
  · rw [if_pos hm] at hn; cases hn; exact .inl ⟨hm, rfl⟩
  · rw [if_neg hm] at hn
    have hm' : s.ctx.curCmd = some s.ctx.defn.cmd ∧ s.ctx.curSub = s.ctx.defn.sub := by
      constructor <;> by_contra hc <;> exact hm (by simp [hc])
    cases hh : s.ctx.defn.handler with
    | none => rw [hh] at hn; cases hn; exact .inr (.inl ⟨hm', rfl, rfl⟩)
    | some h =>
      rw [hh] at hn
      obtain ⟨r, hr, ht⟩ := invokeHandler_next hn
      exact .inr (.inr ⟨hm', h, r, rfl, hr, ht⟩)

/-- What a subcommand selector can lead to (42_framer.md R115). -/
theorem resolveSubcommand_next {b : Byte} (hn : resolveSubcommand b s = .next t) :
    ∃ c, s.ctx.curCmd = some c ∧
      ((s.reg.lookup s.cfg c (some b) = none ∧ t = raise (.unrecognizedCommand c (some b)) s) ∨
        ∃ d, s.reg.lookup s.cfg c (some b) = some d ∧ t = complete (latchSubcommand b d s)) := by
  unfold resolveSubcommand at hn
  cases hc : s.ctx.curCmd with
  | none => rw [hc] at hn; cases hn
  | some c =>
    simp only [hc] at hn
    cases hl : s.reg.lookup s.cfg c (some b) with
    | none => rw [hl] at hn; cases hn; exact ⟨c, rfl, .inl ⟨hl, rfl⟩⟩
    | some d => rw [hl] at hn; cases hn; exact ⟨c, rfl, .inr ⟨d, hl, rfl⟩⟩

/-- What an addressed command word can lead to (42_framer.md R112). -/
theorem execAddrCmd_next {c : Nat} (hn : execAddrCmd c s = .next t) :
    (s.reg.lookup s.cfg c none = none ∧ t = raise (.unrecognizedCommand c none) (contextReset s)) ∨
      ∃ d, s.reg.lookup s.cfg c none = some d ∧ t = complete (latchCommand c d (contextReset s)) := by
  unfold execAddrCmd at hn
  cases hl : s.reg.lookup s.cfg c none with
  | none => rw [hl] at hn; cases hn; exact .inl ⟨rfl, rfl⟩
  | some d => rw [hl] at hn; cases hn; exact .inr ⟨d, rfl, rfl⟩

/-- What a payload byte can lead to (42_framer.md R114). -/
theorem execData_next {b : Byte} (hn : execData b s = .next t) :
    (s.ctx.rxIdx = s.cfg.rxCap ∧ t = raise (.frameTooLong s.ctx.curCmd s.ctx.curSub s.ctx.rxIdx) s) ∨
      (s.ctx.rxIdx < s.cfg.rxCap ∧ (storePayload b s).ctx.atSelector = true ∧
        resolveSubcommand b (storePayload b s) = .next t) ∨
      (s.ctx.rxIdx < s.cfg.rxCap ∧ (storePayload b s).ctx.atSelector = false ∧ t = complete (storePayload b s)) := by
  unfold execData at hn
  split at hn
  · cases hn; exact .inl ⟨‹_›, rfl⟩
  · split at hn
    · cases hn
    · have hlt : s.ctx.rxIdx < s.cfg.rxCap := by omega
      split at hn
      · exact .inr (.inl ⟨hlt, ‹_›, hn⟩)
      · cases hn; exact .inr (.inr ⟨hlt, eq_false_of_ne_true ‹_›, rfl⟩)

/-- What a checksum word can lead to (42_framer.md R118). -/
theorem execChk_next {k : Byte} (hn : execChk k s = .next t) :
    (k = s.ctx.chk ∧ dispatchFrame (s.withPhase .waitingAck) = .next t) ∨
      (k ≠ s.ctx.chk ∧
        t = raise (.checksumMismatch s.ctx.curCmd s.ctx.curSub s.ctx.payload k s.ctx.chk) s) := by
  unfold execChk at hn
  by_cases hk : k = s.ctx.chk
  · rw [if_pos (by simp [checksumVerify, hk])] at hn; exact .inl ⟨hk, hn⟩
  · rw [if_neg (by simp [checksumVerify, hk])] at hn; cases hn; exact .inr ⟨hk, rfl⟩

/-- When a `REGISTER` answers a next state, and which (41_registry.md R100 to R106). -/
theorem registerWith_next {c : Nat} {h : Option Nat} {write : Registry → Registry}
    (hn : registerWith c h write s = .next t) :
    registerFits s.cfg c h = true ∧ registerTaken s = true ∧ t = s.withReg (write s.reg) := by
  unfold registerWith at hn
  by_cases hf : registerFits s.cfg c h = false
  · rw [if_pos hf] at hn; cases hn
  · by_cases ht : registerTaken s = false
    · rw [if_neg hf, if_pos ht] at hn; cases hn
    · rw [if_neg hf, if_neg ht] at hn; cases hn
      exact ⟨eq_true_of_ne_false hf, eq_true_of_ne_false ht, rfl⟩

theorem execRegisterSub_next {c : Nat} {sub len : Byte} {h : Option Nat} (hn : execRegisterSub c sub len h s = .next t) :
    registerFits s.cfg c h = true ∧ registerTaken s = true ∧
      t = s.withReg (writeSubcommand s.cfg c sub len h s.reg) := registerWith_next hn

theorem execRegisterNosub_next {c : Nat} {len : Byte} {h : Option Nat} (hn : execRegisterNosub c len h s = .next t) :
    registerFits s.cfg c h = true ∧ registerTaken s = true ∧
      t = s.withReg (s.reg.setSlot c none (boundDef c none len h)) := registerWith_next hn

end Sys2Proof.Machine
end

