-- ==== Sys2Proof/Laws/Events.lean ====
section
/-! SUPPORT. What the operations emit, said once for all of them: words alone, an error, or a handler call with what
follows it. -/

namespace Sys2Proof.Machine

open Sys2Proof

variable {s t : State}

theorem raise_errorStep (e : LogEntry) (s : State) (pre : List Output) :
    ErrorStep s (raise e (s.emit pre)) pre e := by
  refine ⟨rfl, ⟨rfl, rfl, rfl, rfl, rfl⟩, ?_⟩
  simp [raiseWords, mkWord]

theorem raise_errorStep_nil (e : LogEntry) (s : State) : ErrorStep s (raise e s) [] e := by
  refine ⟨rfl, ⟨rfl, rfl, rfl, rfl, rfl⟩, ?_⟩
  simp [raiseWords, mkWord]

theorem responseWords_ne_nil (cfg : Config) (tx : Memory) (n : Nat) : responseWords cfg tx n ≠ [] := by
  simp [responseWords]

/-- The call a dispatch of the context makes (43_dispatcher.md R131, R132). -/
abbrev Calls (s : State) (c : HandlerCall) : Prop :=
  s.ctx.defn.handler = some c.handler ∧ s.ctx.curCmd = some c.cmd ∧ c.sub = s.ctx.curSub ∧
    c.rx = s.ctx.rxBuf.bytes s.cfg.rxCap ∧ c.n = s.ctx.rxIdx

theorem dispatchFrame_events (hn : dispatchFrame s = .next t) :
    (∃ r, ErrorStep s t [] (.dispatchInconsistency r s.ctx.curCmd s.ctx.curSub)) ∨
      (∃ c count, Calls s c ∧ s.cfg.txCap < count ∧
        ErrorStep s t [.call c] (.frameTooLong s.ctx.curCmd s.ctx.curSub count)) ∨
      ∃ c ws, Calls s c ∧ ws ≠ [] ∧ SameOutsideContext s t ∧ t.trace = s.trace ++ .call c :: ws.map .tx := by
  rcases dispatchFrame_next hn with ⟨-, rfl⟩ | ⟨-, -, rfl⟩ | ⟨⟨hc, -⟩, h, r, hh, -, rfl⟩
  · exact .inl ⟨_, raise_errorStep_nil _ s⟩
  · exact .inl ⟨_, raise_errorStep_nil _ s⟩
  · rcases Nat.lt_or_ge s.cfg.txCap r.count with hr | hr
    · rw [finishDispatch_of_lt (by exact hr)]
      exact .inr (.inl ⟨handlerCall s h s.ctx.defn.cmd, _, ⟨hh, hc, rfl, rfl, rfl⟩, hr, raise_errorStep _ s _⟩)
    · rw [finishDispatch_of_le (by exact hr)]
      refine .inr (.inr ⟨handlerCall s h s.ctx.defn.cmd,
        responseWords s.cfg (loadOutput r.out (s.emit [.call (handlerCall s h s.ctx.defn.cmd)])).ctx.txBuf r.count, ⟨hh, hc, rfl, rfl, rfl⟩, responseWords_ne_nil _ _ _, ⟨rfl, rfl, rfl, rfl, rfl⟩, ?_⟩)
      simp

/-- Whatever the operation: it emits words alone; or it is an error; or it is `DISPATCH`, or `CHK` with the right byte,
and calls the latched handler once, first of all. -/
theorem exec_events {i : Instr} (hn : exec i s = .next t) :
    (∃ ws : List Word9, t.trace = s.trace ++ ws.map .tx) ∨ (∃ e, ErrorStep s t [] e) ∨
      ((i = .dispatch ∨ i = .chk s.ctx.chk) ∧
        ((∃ c count, Calls s c ∧ s.cfg.txCap < count ∧
            ErrorStep s t [.call c] (.frameTooLong s.ctx.curCmd s.ctx.curSub count)) ∨
          ∃ c ws, Calls s c ∧ ws ≠ [] ∧ SameOutsideContext s t ∧ t.trace = s.trace ++ .call c :: ws.map .tx)) := by
  cases i with
  | addrCmd c =>
    rcases execAddrCmd_next hn with ⟨-, rfl⟩ | ⟨d, -, rfl⟩
    · exact .inr (.inl ⟨_, raise_errorStep_nil _ (contextReset s)⟩)
    · exact .inl ⟨[], by simp⟩
  | addrOther addr low => cases hn; exact .inl ⟨[], by simp⟩
  | data b =>
    rcases execData_next hn with ⟨-, rfl⟩ | ⟨-, -, hr⟩ | ⟨-, -, rfl⟩
    · exact .inr (.inl ⟨_, raise_errorStep_nil _ s⟩)
    · obtain ⟨c, -, ⟨-, rfl⟩ | ⟨d, -, rfl⟩⟩ := resolveSubcommand_next hr
      · exact .inr (.inl ⟨_, raise_errorStep_nil _ (storePayload b s)⟩)
      · exact .inl ⟨[], by simp⟩
    · exact .inl ⟨[], by simp⟩
  | chk k =>
    rcases execChk_next hn with ⟨rfl, hd⟩ | ⟨-, rfl⟩
    · rcases dispatchFrame_events hd with ⟨r, hr⟩ | h
      · exact .inr (.inl ⟨_, hr⟩)
      · exact .inr (.inr ⟨.inr rfl, h⟩)
    · exact .inr (.inl ⟨_, raise_errorStep_nil _ s⟩)
  | dataIgn b => cases hn; exact .inl ⟨[], by simp⟩
  | txData b => cases hn; exact .inl ⟨[mkWord false b], rfl⟩
  | txChk k => cases hn; exact .inl ⟨[mkWord true k], rfl⟩
  | txAck => cases hn; exact .inl ⟨[mkWord true s.cfg.ackCode], rfl⟩
  | txNack => cases hn; exact .inl ⟨[mkWord true s.cfg.nackCode], rfl⟩
  | registerSub c sub len h => obtain ⟨-, -, rfl⟩ := execRegisterSub_next hn; exact .inl ⟨[], by simp⟩
  | registerNosub c len h => obtain ⟨-, -, rfl⟩ := execRegisterNosub_next hn; exact .inl ⟨[], by simp⟩
  | lookup c sub => cases hn; exact .inl ⟨[], by simp⟩
  | ctxReset => cases hn; exact .inl ⟨[], by simp⟩
  | hwReset => cases hn; exact .inl ⟨[], by simp⟩
  | chk8 bytes => cases hn; exact .inl ⟨[], by simp⟩
  | chkAdd acc b => cases hn; exact .inl ⟨[], by simp⟩
  | chkVerify acc k => cases hn; exact .inl ⟨[], by simp⟩
  | dispatch =>
    rcases dispatchFrame_events hn with ⟨r, hr⟩ | h
    · exact .inr (.inl ⟨_, hr⟩)
    · exact .inr (.inr ⟨.inl rfl, h⟩)
  | transmit n =>
    rw [exec, execTransmit] at hn
    split at hn
    · cases hn
    · cases hn; exact .inl ⟨responseWords s.cfg s.ctx.txBuf n, rfl⟩

/-- The registry, the configuration and the environment after a dispatch or a received word are as before. -/
theorem execData_same {b : Byte} (hn : execData b s = .next t) : SameOutsideContext s t := by
  rcases execData_next hn with ⟨-, rfl⟩ | ⟨-, -, hr⟩ | ⟨-, -, rfl⟩
  · exact ⟨rfl, rfl, rfl, rfl, rfl⟩
  · obtain ⟨c, -, ⟨-, rfl⟩ | ⟨d, -, rfl⟩⟩ := resolveSubcommand_next hr
    · exact ⟨rfl, rfl, rfl, rfl, rfl⟩
    · simp [SameOutsideContext]
  · simp [SameOutsideContext]

theorem execAddrCmd_same {c : Nat} (hn : execAddrCmd c s = .next t) : SameOutsideContext s t := by
  rcases execAddrCmd_next hn with ⟨-, rfl⟩ | ⟨d, -, rfl⟩
  · exact ⟨rfl, rfl, rfl, rfl, rfl⟩
  · simp [SameOutsideContext]

theorem dispatchFrame_same (hn : dispatchFrame s = .next t) : SameOutsideContext s t := by
  rcases dispatchFrame_events hn with ⟨_, h⟩ | ⟨_, _, _, _, h⟩ | ⟨_, _, _, _, h, _⟩
  · exact h.2.1
  · exact h.2.1
  · exact h

theorem execChk_same {k : Byte} (hn : execChk k s = .next t) : SameOutsideContext s t := by
  rcases execChk_next hn with ⟨-, h⟩ | ⟨-, rfl⟩
  · show SameOutsideContext (s.withPhase .waitingAck) t
    exact dispatchFrame_same h
  · exact ⟨rfl, rfl, rfl, rfl, rfl⟩

end Sys2Proof.Machine
end

