-- ==== Sys2Proof/Laws/Tables.lean ====
section
/-! SUPPORT. The sparse tables: reading after writing, and that every operation keeps the canonical form; then the same
for the RX and TX buffers and for the registry. -/

namespace Sys2Proof.Machine

open Sys2Proof

section
variable {α : Type} [DecidableEq α] {d : α}

omit [DecidableEq α] in
theorem sparseGet_of_forall_ne {m : List (Nat × α)} {k : Nat} (h : ∀ e ∈ m, e.1 ≠ k) : sparseGet d m k = d := by
  induction m with
  | nil => rfl
  | cons e m ih =>
    obtain ⟨k', v⟩ := e
    have h1 : k' ≠ k := h (k', v) (by simp)
    simp only [sparseGet, h1, if_false]
    exact ih fun e he => h e (by simp [he])

omit [DecidableEq α] in
/-- What a table reads at a key is listed there, or is the unlisted value. -/
theorem sparseGet_mem_or (m : List (Nat × α)) (k : Nat) :
    (k, sparseGet d m k) ∈ m ∨ sparseGet d m k = d := by
  induction m with
  | nil => exact .inr rfl
  | cons e m ih =>
    obtain ⟨k', v⟩ := e
    by_cases h : k' = k
    · subst h; simp [sparseGet]
    · simp only [sparseGet, h, if_false]
      exact ih.imp (List.mem_cons_of_mem _) id

/-- An entry of a written table is the written one or one that was there. -/
theorem mem_sparseSet {m : List (Nat × α)} {k : Nat} {v : α} {e : Nat × α} (h : e ∈ sparseSet d m k v) :
    (e = (k, v) ∧ v ≠ d) ∨ e ∈ m := by
  induction m with
  | nil =>
    simp only [sparseSet] at h
    split at h <;> simp_all
  | cons e' m ih =>
    obtain ⟨k', v'⟩ := e'
    simp only [sparseSet] at h
    split at h
    · split at h
      · exact .inr h
      · rcases List.mem_cons.mp h with rfl | h
        · exact .inl ⟨rfl, ‹_›⟩
        · exact .inr h
    · split at h
      · split at h
        · exact .inr (List.mem_cons_of_mem _ h)
        · rcases List.mem_cons.mp h with rfl | h
          · exact .inl ⟨rfl, ‹_›⟩
          · exact .inr (List.mem_cons_of_mem _ h)
      · rcases List.mem_cons.mp h with rfl | h
        · exact .inr (by simp)
        · exact (ih h).imp id (List.mem_cons_of_mem _)

/-- Writing keeps the canonical form. -/
theorem sparseSet_wf {m : List (Nat × α)} (h : sparseWf d m) (k : Nat) (v : α) : sparseWf d (sparseSet d m k v) := by
  refine ⟨?_, fun e he => ?_⟩
  · obtain ⟨hp, -⟩ := h
    induction m with
    | nil => simp only [sparseSet]; split <;> simp
    | cons e m ih =>
      obtain ⟨k', v'⟩ := e
      obtain ⟨hlt, hp'⟩ := List.pairwise_cons.mp hp
      simp only [sparseSet]
      split
      · rename_i hk
        split
        · exact hp
        · refine List.pairwise_cons.mpr ⟨fun a ha => ?_, hp⟩
          rcases List.mem_cons.mp ha with rfl | ha
          · exact hk
          · exact Nat.lt_trans hk (hlt a ha)
      · split
        · rename_i _ hk
          subst hk
          split
          · exact hp'
          · exact List.pairwise_cons.mpr ⟨hlt, hp'⟩
        · rename_i h1 h2
          refine List.pairwise_cons.mpr ⟨fun a ha => ?_, ih hp'⟩
          rcases mem_sparseSet ha with ⟨rfl, -⟩ | ha
          · simp only; omega
          · exact hlt a ha
  · rcases mem_sparseSet he with ⟨rfl, hv⟩ | he
    · exact hv
    · exact h.2 e he

/-- Reading another key after a write gives what was there. -/
theorem sparseGet_sparseSet_ne (m : List (Nat × α)) {k k' : Nat} (v : α) (h : k' ≠ k) :
    sparseGet d (sparseSet d m k v) k' = sparseGet d m k' := by
  have h' : ¬ k = k' := fun e => h e.symm
  induction m with
  | nil => simp only [sparseSet]; split <;> simp [sparseGet, h']
  | cons e m ih =>
    obtain ⟨a, b⟩ := e
    simp only [sparseSet]
    split
    · split <;> simp [sparseGet, h']
    · split
      · rename_i _ hk
        subst hk
        split <;> simp [sparseGet, h']
      · simp only [sparseGet, ih]

/-- Reading the written key gives the written value. -/
theorem sparseGet_sparseSet_self {m : List (Nat × α)} (h : sparseWf d m) (k : Nat) (v : α) :
    sparseGet d (sparseSet d m k v) k = v := by
  obtain ⟨hp, -⟩ := h
  induction m with
  | nil => simp only [sparseSet]; split <;> simp_all [sparseGet]
  | cons e m ih =>
    obtain ⟨a, b⟩ := e
    obtain ⟨hlt, hp⟩ := List.pairwise_cons.mp hp
    simp only [sparseSet]
    split
    · rename_i hk
      split
      · rename_i hv
        rw [hv]
        refine sparseGet_of_forall_ne fun e he => ?_
        rcases List.mem_cons.mp he with rfl | he
        · exact Nat.ne_of_gt hk
        · have := hlt e he; simp only at this; omega
      · simp [sparseGet]
    · split
      · rename_i _ hk
        subst hk
        split
        · rename_i hv
          rw [hv]
          exact sparseGet_of_forall_ne fun e he => Nat.ne_of_gt (hlt e he)
        · simp [sparseGet]
      · rename_i h1 h2
        have : ¬ a = k := fun e => h2 e.symm
        simp only [sparseGet, this, if_false]
        exact ih hp

end

/-! The buffers. -/

theorem Memory.write_wf {m : Memory} (h : m.wf) (a : Nat) (v : Byte) : (m.write a v).wf := sparseSet_wf h a v

theorem Memory.read_write_self {m : Memory} (h : m.wf) (a : Nat) (v : Byte) : (m.write a v).read a = v :=
  sparseGet_sparseSet_self h a v

theorem Memory.read_write_ne (m : Memory) {a b : Nat} (v : Byte) (h : b ≠ a) : (m.write a v).read b = m.read b :=
  sparseGet_sparseSet_ne m v h

@[simp] theorem Memory.read_nil (a : Nat) : Memory.read [] a = 0x00 := rfl

theorem Memory.writeBytes_wf {m : Memory} (h : m.wf) (a : Nat) (bs : List Byte) : (m.writeBytes a bs).wf := by
  induction bs generalizing m a with
  | nil => exact h
  | cons b bs ih => exact ih (m.write_wf h a b) (a + 1)

/-- An index below the written ones reads as before. -/
theorem Memory.read_writeBytes_lt (m : Memory) {a i : Nat} (bs : List Byte) (h : i < a) :
    (m.writeBytes a bs).read i = m.read i := by
  induction bs generalizing m a with
  | nil => rfl
  | cons b bs ih =>
    rw [Memory.writeBytes, ih (m.write a b) (by omega), m.read_write_ne b (by omega)]

/-- The `i`-th written byte reads back. -/
theorem Memory.read_writeBytes {m : Memory} (h : m.wf) (a : Nat) (bs : List Byte) (i : Nat) (hi : i < bs.length) :
    (m.writeBytes a bs).read (a + i) = bs[i] := by
  induction bs generalizing m a i with
  | nil => simp at hi
  | cons b bs ih =>
    rw [Memory.writeBytes]
    cases i with
    | zero =>
      rw [Nat.add_zero, Memory.read_writeBytes_lt _ bs (by omega)]
      exact Memory.read_write_self h a b
    | succ i =>
      have := ih (m.write_wf h a b) (a + 1) i (by simpa using hi)
      simpa [Nat.add_assoc, Nat.add_comm 1 i] using this

/-- Every listed byte of a written buffer was there before or lies among the written indices. -/
theorem Memory.mem_writeBytes {m : Memory} {a : Nat} {bs : List Byte} {e : Host.Cell}
    (h : e ∈ m.writeBytes a bs) : e ∈ m ∨ (a ≤ e.1 ∧ e.1 < a + bs.length) := by
  induction bs generalizing m a with
  | nil => exact .inl h
  | cons b bs ih =>
    rcases ih (m := m.write a b) (a := a + 1) h with h | ⟨h1, h2⟩
    · rcases mem_sparseSet h with ⟨rfl, -⟩ | h
      · exact .inr (by simp)
      · exact .inl h
    · exact .inr ⟨by omega, by simp; omega⟩

@[simp] theorem Memory.length_bytes (m : Memory) (n : Nat) : (m.bytes n).length = n := by simp [Memory.bytes]

theorem Memory.bytes_succ (m : Memory) (n : Nat) : m.bytes (n + 1) = m.bytes n ++ [m.read n] := by
  simp [Memory.bytes, List.range_succ]

/-- A write at or past the end leaves the bytes before it. -/
theorem Memory.bytes_write_of_le (m : Memory) {n a : Nat} (v : Byte) (h : n ≤ a) :
    (m.write a v).bytes n = m.bytes n := by
  refine List.map_congr_left fun i hi => m.read_write_ne v ?_
  have := List.mem_range.mp hi
  omega

/-- A byte that is not listed below `n` reads as 0x00. -/
theorem Memory.read_of_forall_lt {m : Memory} {n i : Nat} (h : ∀ e ∈ m, e.1 < n) (hi : n ≤ i) : m.read i = 0x00 :=
  sparseGet_of_forall_ne fun e he => by have := h e he; omega

/-! The registry. -/

theorem slotIndex_inj {c c' : Nat} {s s' : Option Byte} (h : slotIndex c s = slotIndex c' s') : c = c' ∧ s = s' := by
  cases s with
  | none =>
    cases s' with
    | none => simp [slotIndex] at h; exact ⟨h, rfl⟩
    | some b' => simp only [slotIndex] at h; have := b'.isLt; omega
  | some b =>
    cases s' with
    | none => simp only [slotIndex] at h; have := b.isLt; omega
    | some b' =>
      simp only [slotIndex] at h
      have := b.isLt
      have := b'.isLt
      have h1 : c = c' := by omega
      have h2 : b.toNat = b'.toNat := by omega
      exact ⟨h1, by rw [BitVec.eq_of_toNat_eq h2]⟩

theorem Registry.setSlot_wf {r : Registry} (h : r.wf) (c : Nat) (s : Option Byte) (d : Definition) :
    (r.setSlot c s d).wf := sparseSet_wf h _ d

theorem Registry.slot_setSlot_self {r : Registry} (h : r.wf) (c : Nat) (s : Option Byte) (d : Definition) :
    (r.setSlot c s d).slot c s = d := sparseGet_sparseSet_self h _ d

theorem Registry.slot_setSlot_ne (r : Registry) {c c' : Nat} {s s' : Option Byte} (d : Definition)
    (h : ¬(c' = c ∧ s' = s)) : (r.setSlot c s d).slot c' s' = r.slot c' s' :=
  sparseGet_sparseSet_ne r d fun e => h (slotIndex_inj e)

@[simp] theorem Registry.slot_nil (c : Nat) (s : Option Byte) : Registry.slot [] c s = .unregistered := rfl

@[simp] theorem Registry.lookup_nil (cfg : Config) (c : Nat) (s : Option Byte) : Registry.lookup cfg [] c s = none := by
  cases s <;> simp [Registry.lookup, Definition.unregistered]

/-- All of what `Lookup` answers (R104): the slot, where it is valid and lies in the table. -/
theorem Registry.lookup_eq_some_iff (cfg : Config) (r : Registry) (c : Nat) (s : Option Byte) (d : Definition) :
    r.lookup cfg c s = some d ↔
      (∀ b ∈ s, b.toNat < cfg.nSub) ∧ (r.slot c s).valid = true ∧ d = r.slot c s := by
  cases s with
  | none =>
    by_cases h : (r.slot c none).valid = true
    · simpa [Registry.lookup, h] using eq_comm
    · simp [Registry.lookup, h]
  | some b =>
    by_cases h : b.toNat < cfg.nSub ∧ (r.slot c (some b)).valid = true
    · simpa [Registry.lookup, h] using eq_comm
    · simp only [Registry.lookup, if_neg h]
      refine ⟨fun e => (by simp at e), fun e => (h ⟨e.1 b rfl, e.2.1⟩).elim⟩

/-- A found definition is registered, at its own codes (R105), and is a sentinel or bound (R23). -/
theorem RegInv.of_lookup {cfg : Config} {r : Registry} (h : RegInv cfg r) {c : Nat} {s : Option Byte} {d : Definition}
    (hl : r.lookup cfg c s = some d) :
    d.valid = true ∧ d.cmd = c ∧ d.sub = s ∧ c < cfg.nCmd ∧ (s.isSome = true → d.hasSub = false) ∧
      (d.hasSub = true → d.handler = none) ∧ handlerFits cfg d.handler = true := by
  obtain ⟨-, hv, hd⟩ := (r.lookup_eq_some_iff cfg c s d).mp hl
  rcases sparseGet_mem_or (d := Definition.unregistered) r (slotIndex c s) with hm | hm
  · obtain ⟨h1, h2, h3, h4, h5, h6⟩ := h.2 _ hm
    rw [← Registry.slot, ← hd] at h1 h2 h3 h4 h5 h6
    obtain ⟨hc, hs⟩ := slotIndex_inj h2
    refine ⟨h1, hc.symm, hs.symm, hc ▸ h3, fun hb => ?_, fun hh => (h5 hh).2, h6⟩
    obtain ⟨b, hb⟩ := Option.isSome_iff_exists.mp hb
    exact (h4 b (hs ▸ hb)).2
  · rw [Registry.slot, hm] at hv
    simp [Definition.unregistered] at hv

/-- Writing a definition that meets `EntryInv` at its own slot keeps the registry invariant. -/
theorem RegInv.setSlot {cfg : Config} {r : Registry} (h : RegInv cfg r) {c : Nat} {s : Option Byte} {d : Definition}
    (he : EntryInv cfg (slotIndex c s, d)) : RegInv cfg (r.setSlot c s d) := by
  refine ⟨Registry.setSlot_wf h.1 c s d, fun e hm => ?_⟩
  rcases mem_sparseSet hm with ⟨rfl, -⟩ | hm
  · exact he
  · exact h.2 e hm

theorem RegInv.nil (cfg : Config) : RegInv cfg [] :=
  ⟨⟨List.Pairwise.nil, fun _ h => nomatch h⟩, fun _ h => nomatch h⟩

end Sys2Proof.Machine
end

