-- ==== Sys2Proof/Laws/Completion.lean ====
section
/-! SUPPORT. When the shared operations answer, and with what: the direction that Sys2Proof/Laws/Exec.lean leaves out. -/

namespace Sys2Proof.Machine

open Sys2Proof

/-- The words of a response are the events the specification of it names, where TX holds the bytes named. -/
theorem responseWords_events (cfg : Config) (tx : Memory) (n : Nat) (byte : Nat → Byte) (h0 : tx.read 0 = byte 0)
    (h : ∀ i, i < n → tx.read i = byte i) : (responseWords cfg tx n).map Output.tx = responseEvents cfg byte n := by
  have hb : tx.bytes n = (List.range n).map byte := List.map_congr_left fun i hi => h i (List.mem_range.mp hi)
  unfold responseWords responseEvents terminatorByte rejected checksum
  rw [hb, h0]
  simp only [List.map_append, List.map_map, List.map_cons, List.map_nil, decide_eq_true_eq]
  rfl

/-- An index past the written ones reads as before. -/
theorem Memory.read_writeBytes_ge (m : Memory) (bs : List Byte) {a i : Nat} (h : a + bs.length ≤ i) :
    (m.writeBytes a bs).read i = m.read i := by
  induction bs generalizing m a with
  | nil => rfl
  | cons b bs ih =>
    simp only [List.length_cons] at h
    rw [Memory.writeBytes, ih _ (by omega), Memory.read_write_ne _ _ (by omega)]

/-- A consistent context with a handler that returns (43_dispatcher.md R131). -/
theorem dispatchFrame_of_returns {s : State} {h : Nat} {r : HandlerResult} (h1 : s.ctx.curCmd = some s.ctx.defn.cmd)
    (h2 : s.ctx.curSub = s.ctx.defn.sub) (h3 : s.ctx.defn.handler = some h)
    (h4 : handlerReply s.handlers (handlerCall s h s.ctx.defn.cmd) = .returns r) :
    dispatchFrame s = .next (finishDispatch r (s.emit [.call (handlerCall s h s.ctx.defn.cmd)])) := by
  unfold dispatchFrame
  rw [if_neg (by simp [h1, h2]), h3]
  simp only [invokeHandler, h4]

/-- The same with a handler that never returns (43_dispatcher.md R136). -/
theorem dispatchFrame_of_hangs {s : State} {h : Nat} (h1 : s.ctx.curCmd = some s.ctx.defn.cmd)
    (h2 : s.ctx.curSub = s.ctx.defn.sub) (h3 : s.ctx.defn.handler = some h)
    (h4 : handlerReply s.handlers (handlerCall s h s.ctx.defn.cmd) = .hangs) :
    dispatchFrame s = .fault .handlerHang := by
  unfold dispatchFrame
  rw [if_neg (by simp [h1, h2]), h3]
  simp only [invokeHandler, h4]

/-- A checksum byte is accepted exactly when it is the running sum (42_framer.md R118). -/
theorem execChk_of_eq (s : State) : execChk s.ctx.chk s = dispatchFrame (s.withPhase .waitingAck) := by
  unfold execChk
  rw [if_pos (by simp [checksumVerify])]

theorem execChk_of_ne {k : Byte} {s : State} (h : k ≠ s.ctx.chk) :
    execChk k s =
      .next (raise (.checksumMismatch s.ctx.curCmd s.ctx.curSub s.ctx.payload k s.ctx.chk) s) := by
  unfold execChk
  rw [if_neg (by simpa [checksumVerify] using h)]

/-- A registration that fits and is taken (41_registry.md R100, R101, R106). -/
theorem registerWith_of_taken {s : State} {c : Nat} {h : Option Nat} {w : Registry → Registry}
    (hf : registerFits s.cfg c h = true) (ht : registerTaken s = true) :
    registerWith c h w s = .next (s.withReg (w s.reg)) := by
  unfold registerWith
  rw [if_neg (by simp [hf]), if_neg (by simp [ht])]

/-- One step of a run. -/
theorem core_run_succ {k : Nat} {s t : State} (h : step s = .next t) :
    Host.Core.run core (k + 1) s = Host.Core.run core k t := by
  have h' : core.step s = .next t := h
  simp only [Host.Core.run]
  rw [h']

end Sys2Proof.Machine
end

