-- ==== Sys2Proof/Laws/Words.lean ====
section
/-! SUPPORT. The fields of a word written from its parts, and a word from its fields (30_encoding.md R70, R71). -/

namespace Sys2Proof

@[simp] theorem modeFlag_mkWord (m : Bool) (b : Byte) : modeFlag (mkWord m b) = m := by
  unfold modeFlag mkWord
  rw [BitVec.getLsbD_append]
  cases m <;> rfl

@[simp] theorem dataByte_mkWord (m : Bool) (b : Byte) : dataByte (mkWord m b) = b := by
  unfold dataByte mkWord
  ext i hi
  rw [BitVec.getElem_setWidth, BitVec.getLsbD_append, if_pos hi, BitVec.getLsbD_eq_getElem hi]

/-- A word is its mode flag and its data byte. -/
theorem mkWord_modeFlag_dataByte (w : Word9) : mkWord (modeFlag w) (dataByte w) = w := by
  revert w; decide

@[simp] theorem wordOfCarrier_toNat (w : Word9) : wordOfCarrier w.toNat = w := by simp [wordOfCarrier]

/-- An address byte fits its eight bits when its fields fit theirs. -/
theorem addressByte_toNat {cfg : Config} (hl : cfg.Legal) {addr cmd : Nat} (ha : addr < 2 ^ cfg.addrW)
    (hc : cmd < cfg.nCmd) : (addressByte cfg addr cmd).toNat = addr * 2 ^ cfg.cmdW + cmd := by
  have hp : 2 ^ cfg.addrW * 2 ^ cfg.cmdW = 256 := by
    rw [← Nat.pow_add, show cfg.addrW + cfg.cmdW = 8 by unfold Config.addrW; omega]
  have h1 : addr * 2 ^ cfg.cmdW + 2 ^ cfg.cmdW ≤ 2 ^ cfg.addrW * 2 ^ cfg.cmdW := by
    rw [← Nat.succ_mul]; exact Nat.mul_le_mul_right _ ha
  unfold Config.nCmd at hc
  simp only [addressByte, BitVec.toNat_ofNat]
  omega

theorem addrField_mkWord {cfg : Config} (hl : cfg.Legal) {addr cmd : Nat} (ha : addr < 2 ^ cfg.addrW)
    (hc : cmd < cfg.nCmd) (m : Bool) : addrField cfg (mkWord m (addressByte cfg addr cmd)) = addr := by
  rw [addrField, dataByte_mkWord, addressByte_toNat hl ha hc, Nat.add_comm,
    Nat.add_mul_div_right _ _ (Nat.two_pow_pos _), Nat.div_eq_of_lt (by exact hc), Nat.zero_add]

theorem cmdField_mkWord {cfg : Config} (hl : cfg.Legal) {addr cmd : Nat} (ha : addr < 2 ^ cfg.addrW)
    (hc : cmd < cfg.nCmd) (m : Bool) : cmdField cfg (mkWord m (addressByte cfg addr cmd)) = cmd := by
  rw [cmdField, dataByte_mkWord, addressByte_toNat hl ha hc, Nat.add_comm, Nat.add_mul_mod_self_right,
    Nat.mod_eq_of_lt (by exact hc)]

/-- An address byte is rebuilt from its fields. -/
theorem addressByte_fields (cfg : Config) (w : Word9) :
    addressByte cfg (addrField cfg w) (cmdField cfg w) = dataByte w := by
  apply BitVec.eq_of_toNat_eq
  rw [addressByte, addrField, cmdField, Nat.div_add_mod', BitVec.ofNat_toNat, BitVec.setWidth_eq]

theorem cmdField_lt (cfg : Config) (w : Word9) : cmdField cfg w < cfg.nCmd := Nat.mod_lt _ (Nat.two_pow_pos _)

theorem addrField_lt {cfg : Config} (hl : cfg.Legal) (w : Word9) : addrField cfg w < 2 ^ cfg.addrW := by
  have hp : 2 ^ cfg.addrW * 2 ^ cfg.cmdW = 256 := by
    rw [← Nat.pow_add, show cfg.addrW + cfg.cmdW = 8 by unfold Config.addrW; omega]
  rw [addrField, Nat.div_lt_iff_lt_mul (Nat.two_pow_pos _), hp]
  exact (dataByte w).isLt

end Sys2Proof
end

