-- ==== Sys2Proof/Laws/Invariant.lean ====
section
/-! SUPPORT. What each shared operation does to the invariants of Sys2Proof/Safety.lean. -/

namespace Sys2Proof.Machine

open Sys2Proof

variable {cfg : Config} {c : Context} {s t : State}

theorem Context.completes_iff (c : Context) :
    c.completes = true ↔ c.defn.valid = true ∧ c.defn.hasSub = false ∧ c.rxIdx = c.defn.expLen.toNat := by
  simp [Context.completes, Context.resolved, and_assoc]

theorem Context.resolved_iff (c : Context) :
    c.resolved = true ↔ c.defn.valid = true ∧ c.defn.hasSub = false := by
  simp [Context.resolved]

theorem CtxInv.init (cfg : Config) : CtxInv cfg Context.init := by
  refine ⟨Nat.zero_le _, rfl, ⟨?_, ?_, ?_, ?_, fun _ => rfl⟩, ?_, fun _ => rfl, ?_, ?_, ?_⟩
  · exact ⟨List.Pairwise.nil, fun _ h => nomatch h⟩
  · exact ⟨List.Pairwise.nil, fun _ h => nomatch h⟩
  all_goals simp [Context.init, Definition.unregistered]

/-- After the completion test, a context that was being filled meets its phase's invariant. -/
theorem CtxInv.complete (hr : s.ctx.rxIdx ≤ cfg.rxCap) (hk : s.ctx.chk = checksum s.ctx.payload)
    (hb : BufferInv cfg s.ctx) (hl : LatchInv s.ctx) (hst : s.ctx.state = .receivingData)
    (hv : s.ctx.defn.valid = true) (h1 : s.ctx.defn.hasSub = true → s.ctx.rxIdx ≤ 1)
    (h2 : s.ctx.defn.hasSub = false → s.ctx.defn.expLen.toNat < s.ctx.rxIdx →
      s.ctx.curSub.isSome = true ∧ s.ctx.defn.expLen.toNat < 2) :
    CtxInv cfg (complete s).ctx := by
  obtain ⟨hb1, hb2, hb3, hb4, hb5⟩ := hb
  have htx : s.ctx.txBuf = [] := hb5 (by rw [hst]; decide)
  rw [complete_ctx]
  by_cases hc : s.ctx.completes = true
  · obtain ⟨-, hs, hx⟩ := (Context.completes_iff _).mp hc
    rw [if_pos hc]
    refine ⟨hr, hk, ⟨hb1, hb2, hb3, hb4, fun _ => htx⟩, hl, ?_, ?_, ?_, ?_⟩
    · intro h; cases h
    · intro h; cases h
    · exact fun _ => ⟨(Context.resolved_iff _).mpr ⟨hv, hs⟩, hx⟩
    · intro h; cases h
  · rw [if_neg hc]
    refine ⟨hr, hk, ⟨hb1, hb2, hb3, hb4, fun _ => htx⟩, hl, ?_, ?_, ?_, ?_⟩
    · intro h; rw [hst] at h; cases h
    · exact fun _ => ⟨hv, fun hs hx => hc ((Context.completes_iff _).mpr ⟨hv, hs, hx⟩), h1, h2⟩
    · intro h; rw [hst] at h; cases h
    · intro h; rw [hst] at h; cases h

/-- The payload, the running sum and the buffers after one byte is stored (10_state.md R29, R30). -/
theorem storePayload_payload (b : Byte) (h : s.ctx.rxBuf.wf) :
    (storePayload b s).ctx.payload = s.ctx.payload ++ [b] := by
  simp only [storePayload_ctx, Context.payload]
  rw [Memory.bytes_succ, Memory.bytes_write_of_le _ _ (Nat.le_refl _), Memory.read_write_self h]

theorem storePayload_bufferInv (b : Byte) (h : BufferInv cfg s.ctx) : BufferInv cfg (storePayload b s).ctx := by
  obtain ⟨h1, h2, h3, h4, h5⟩ := h
  refine ⟨Memory.write_wf h1 _ _, h2, fun e he => ?_, h4, h5⟩
  rcases mem_sparseSet he with ⟨rfl, -⟩ | he
  · exact Nat.lt_succ_self _
  · exact Nat.lt_succ_of_lt (h3 e he)

theorem storePayload_chk (b : Byte) (h : s.ctx.rxBuf.wf) (hk : s.ctx.chk = checksum s.ctx.payload) :
    (storePayload b s).ctx.chk = checksum (storePayload b s).ctx.payload := by
  rw [storePayload_payload b h, checksum_snoc, ← hk]; rfl

theorem length_outputArray (cfg : Config) (out : List Byte) : (outputArray cfg out).length = cfg.txCap := by
  simp [outputArray]

/-- TX holds the handler's output array after it is loaded into a cleared buffer (43_dispatcher.md R133). -/
theorem loadOutput_read (out : List Byte) (h : s.ctx.txBuf.wf) {i : Nat} (hi : i < s.cfg.txCap) :
    (loadOutput out s).ctx.txBuf.read i = (outputArray s.cfg out)[i]'(by rw [length_outputArray]; exact hi) := by
  have := Memory.read_writeBytes h 0 (outputArray s.cfg out) i (by rw [length_outputArray]; exact hi)
  simpa using this

/-- A filling context stays one, completes, or is reset, whatever the payload byte (42_framer.md R114 to R116). -/
theorem execData_ctxInv {b : Byte} (hreg : RegInv s.cfg s.reg) (h : CtxInv s.cfg s.ctx)
    (hst : s.ctx.state = .receivingData) (hn : execData b s = .next t) : CtxInv s.cfg t.ctx := by
  obtain ⟨hr, hk, hb, hl, -, hrd, -⟩ := h
  obtain ⟨hv, hne, hsub, hshort⟩ := hrd hst
  have hb' := storePayload_bufferInv b hb
  have hk' := storePayload_chk b hb.1 hk
  rcases execData_next hn with ⟨-, rfl⟩ | ⟨hlt, hsel, hres⟩ | ⟨hlt, hsel, rfl⟩
  · exact CtxInv.init _
  · obtain ⟨c, hc, ⟨-, rfl⟩ | ⟨d, hd, rfl⟩⟩ := resolveSubcommand_next hres
    · exact CtxInv.init _
    · obtain ⟨hdv, hdc, hds, -, hdh, -⟩ := RegInv.of_lookup hreg hd
      have hdh := hdh rfl
      refine CtxInv.complete hlt hk' hb' (fun _ => ⟨?_, ?_, ?_⟩) hst hdv ?_ ?_
      · exact hc.trans (congrArg some hdc.symm)
      · exact hds.symm
      · intro hh; exact absurd (hh.symm.trans hdh) (by decide)
      · intro hh; exact absurd (hh.symm.trans hdh) (by decide)
      · intro _ hx
        have h2 : s.ctx.rxIdx + 1 = 2 := by
          have := hsel; simp only [Context.atSelector, Bool.and_eq_true, decide_eq_true_eq] at this
          exact this.1
        refine ⟨rfl, ?_⟩
        rw [← h2]
        exact hx
  · refine CtxInv.complete hlt hk' hb' hl hst hv ?_ ?_
    · intro hh
      have h1 : s.ctx.rxIdx ≤ 1 := hsub hh
      have : ¬(s.ctx.rxIdx + 1 = 2) := by
        intro h2
        have : (storePayload b s).ctx.atSelector = true := by
          simp only [Context.atSelector, Bool.and_eq_true, decide_eq_true_eq]
          exact ⟨h2, hh⟩
        rw [hsel] at this; cases this
      show s.ctx.rxIdx + 1 ≤ 1
      omega
    · intro hh hx
      have h1 := hne hh
      have h2 : s.ctx.defn.expLen.toNat < s.ctx.rxIdx + 1 := hx
      exact hshort hh (by omega)

theorem execAddrCmd_ctxInv {c : Nat} (hreg : RegInv s.cfg s.reg) (hn : execAddrCmd c s = .next t) :
    CtxInv s.cfg t.ctx := by
  rcases execAddrCmd_next hn with ⟨-, rfl⟩ | ⟨d, hd, rfl⟩
  · exact CtxInv.init _
  · obtain ⟨hdv, hdc, hds, -⟩ := RegInv.of_lookup hreg hd
    obtain ⟨h1, h2, h3, -⟩ := CtxInv.init s.cfg
    refine CtxInv.complete h1 h2 ⟨h3.1, h3.2.1, h3.2.2.1, h3.2.2.2.1, fun _ => rfl⟩ (fun _ => ⟨?_, ?_, fun _ => hds⟩)
      rfl hdv (fun _ => Nat.zero_le _) (fun _ hx => absurd hx (Nat.not_lt_zero _))
    · exact congrArg some hdc.symm
    · exact hds.symm

theorem execChk_ctxInv {k : Byte} (h : CtxInv s.cfg s.ctx) (hst : s.ctx.state = .expectingChecksum)
    (hn : execChk k s = .next t) : CtxInv s.cfg t.ctx := by
  obtain ⟨hr, hk, ⟨hb1, hb2, hb3, hb4, hb5⟩, hl, -, -, hec, -⟩ := h
  rcases execChk_next hn with ⟨-, hd⟩ | ⟨-, rfl⟩
  · rcases dispatchFrame_next hd with ⟨-, rfl⟩ | ⟨-, -, rfl⟩ | ⟨-, h, r, hh, -, rfl⟩
    · exact CtxInv.init _
    · exact CtxInv.init _
    · obtain ⟨hres, hx⟩ := hec hst
      rcases Nat.lt_or_ge s.cfg.txCap r.count with hc | hc
      · rw [finishDispatch_of_lt (by exact hc)]; exact CtxInv.init _
      · rw [finishDispatch_of_le (by exact hc)]
        refine ⟨hr, hk, ⟨hb1, Memory.writeBytes_wf hb2 _ _, hb3, fun e he => ?_, fun hne => absurd rfl hne⟩, hl,
          fun h => (nomatch h), fun h => (nomatch h), fun h => (nomatch h), fun _ => ⟨hres, hx, ?_⟩⟩
        · rcases Memory.mem_writeBytes he with he | ⟨-, he⟩
          · exact hb4 e he
          · rw [length_outputArray] at he
            exact (Nat.zero_add s.cfg.txCap) ▸ he
        · exact (congrArg Option.isSome hh).trans rfl
  · exact CtxInv.init _

/-- A taken `REGISTER` whose operands fit keeps the registry invariant (41_registry.md R100, R101, R105). -/
theorem RegInv.setBound {r : Registry} (h : RegInv cfg r) {c : Nat} {sub : Option Byte} {len : Byte} {hd : Option Nat}
    (hf : registerFits cfg c hd = true) (hs : ∀ b ∈ sub, b.toNat < cfg.nSub) :
    RegInv cfg (r.setSlot c sub (boundDef c sub len hd)) := by
  simp only [registerFits, Bool.and_eq_true, decide_eq_true_eq] at hf
  exact RegInv.setSlot h ⟨rfl, rfl, hf.1, fun b hb => ⟨hs b hb, rfl⟩, fun hh => (by cases hh), hf.2⟩

theorem RegInv.setSentinel {r : Registry} (h : RegInv cfg r) {c : Nat} (hc : c < cfg.nCmd) :
    RegInv cfg (r.setSlot c none (sentinelDef c)) :=
  RegInv.setSlot h ⟨rfl, rfl, hc, fun b hb => (by cases hb), fun _ => ⟨rfl, rfl⟩, rfl⟩

theorem RegInv.writeSubcommand {r : Registry} (h : RegInv cfg r) {c : Nat} {b len : Byte} {hd : Option Nat}
    (hf : registerFits cfg c hd = true) : RegInv cfg (writeSubcommand cfg c b len hd r) := by
  have hc : c < cfg.nCmd := by
    simp only [registerFits, Bool.and_eq_true, decide_eq_true_eq] at hf; exact hf.1
  unfold Machine.writeSubcommand
  split
  · exact RegInv.setBound (RegInv.setSentinel h hc) hf (by rintro _ ⟨⟩; assumption)
  · exact h

end Sys2Proof.Machine
end

