-- ==== Sys2Proof/Laws/PerInstr.lean ====
section
/-! SUPPORT. The family EncodedMode: the mode flag of an operation's word (30_encoding.md R71, R75, R76, R83). -/

namespace Sys2Proof.Laws.EncodedMode

open Sys2Proof

/-- The mode flag the format of the operation gives its word (the encoding column of R83); no operation without a word
is asked about. -/
def modeOf : Instr → Bool
  | .addrCmd _ => true
  | .addrOther _ _ => true
  | .txChk _ => true
  | .txAck => true
  | .txNack => true
  | _ => false

/-- The word of an operation, under every configuration, carries that mode flag. -/
def Statement (i : Instr) : Prop := ∀ cfg w, encode cfg i = some w → modeFlag w = modeOf i

theorem of_word {i : Instr} {m : Bool} {f : Config → Byte} (he : ∀ cfg, encode cfg i = some (mkWord m (f cfg)))
    (hm : modeOf i = m) : Statement i := by
  intro cfg w h
  rw [he] at h
  cases h
  rw [modeFlag_mkWord, hm]

theorem of_none {i : Instr} (he : ∀ cfg, encode cfg i = none) : Statement i := by
  intro cfg w h
  rw [he] at h
  cases h

theorem addrCmd (c : Nat) : Statement (.addrCmd c) := of_word (fun _ => rfl) rfl
theorem addrOther (addr low : Nat) : Statement (.addrOther addr low) := of_word (fun _ => rfl) rfl
theorem data (b : Byte) : Statement (.data b) := of_word (fun _ => rfl) rfl
theorem chk (k : Byte) : Statement (.chk k) := of_word (fun _ => rfl) rfl
theorem dataIgn (b : Byte) : Statement (.dataIgn b) := of_word (fun _ => rfl) rfl
theorem txData (b : Byte) : Statement (.txData b) := of_word (fun _ => rfl) rfl
theorem txChk (k : Byte) : Statement (.txChk k) := of_word (fun _ => rfl) rfl
theorem txAck : Statement .txAck := of_word (fun _ => rfl) rfl
theorem txNack : Statement .txNack := of_word (fun _ => rfl) rfl
theorem registerSub (c : Nat) (s len : Byte) (h : Option Nat) : Statement (.registerSub c s len h) :=
  of_none fun _ => rfl
theorem registerNosub (c : Nat) (len : Byte) (h : Option Nat) : Statement (.registerNosub c len h) :=
  of_none fun _ => rfl
theorem lookup (c : Nat) (s : Option Byte) : Statement (.lookup c s) := of_none fun _ => rfl
theorem ctxReset : Statement .ctxReset := of_none fun _ => rfl
theorem hwReset : Statement .hwReset := of_none fun _ => rfl
theorem chk8 (bytes : List Byte) : Statement (.chk8 bytes) := of_none fun _ => rfl
theorem chkAdd (acc b : Byte) : Statement (.chkAdd acc b) := of_none fun _ => rfl
theorem chkVerify (acc k : Byte) : Statement (.chkVerify acc k) := of_none fun _ => rfl
theorem dispatch : Statement .dispatch := of_none fun _ => rfl
theorem transmit (n : Nat) : Statement (.transmit n) := of_none fun _ => rfl

end Sys2Proof.Laws.EncodedMode
end

