-- ==== Sys2Proof/Tests/Slice0.lean ====
section
/-! SUPPORT. The model's own tests. Expected results come from 30_encoding.md and 95_test_vectors.md (V<n>, P<n> name its
rows); the last part shows, for every obligation with hypotheses, values that meet them, at the edges of each clause. -/

namespace Sys2Proof.Tests

open Sys2Proof Sys2Proof.Machine

/-! The states of the vectors. -/

/-- A receive buffer of 36 bytes, as a handler sees it. -/
def padded (bs : List Byte) : List Byte := bs ++ List.replicate (36 - bs.length) 0x00

/-- The registrations of V21 with those of P2, P5, V34, V38 and a handler that never returns (handler 7). -/
def regs : Registry :=
  [(257, boundDef 1 none 1 (some 1)), (514, sentinelDef 2), (515, boundDef 2 (some 0) 3 (some 2)),
    (516, boundDef 2 (some 1) 5 (some 3))] ++
  [(771, boundDef 3 none 3 (some 4)), (1028, boundDef 4 none 0 (some 5)), (1542, boundDef 6 none 0 (some 8)),
    (1799, boundDef 7 none 0 none)] ++
  [(2056, boundDef 8 none 40 (some 1)), (2313, boundDef 9 none 0 (some 6)), (2570, boundDef 10 none 0 (some 7)),
    (2827, sentinelDef 11), (2829, boundDef 11 (some 1) 1 (some 1))]

/-- The points of the handlers that the vectors fix. -/
def rows : List HandlerRow :=
  [⟨⟨1, 1, none, padded [0xAA], 1⟩, .returns ⟨1, [0xAA]⟩⟩,
    ⟨⟨3, 2, some 1, padded [0x10, 0x01, 0x02, 0x03, 0x04], 5⟩, .returns ⟨0, []⟩⟩,
    ⟨⟨5, 4, none, padded [], 0⟩, .returns ⟨0, []⟩⟩, ⟨⟨6, 9, none, padded [], 0⟩, .returns ⟨37, []⟩⟩,
    ⟨⟨7, 10, none, padded [], 0⟩, .hangs⟩, ⟨⟨8, 6, none, padded [], 0⟩, .returns ⟨2, [0xFF, 0x05]⟩⟩]

/-- Idle, with the registrations made. -/
def ready : State := { State.reset with reg := regs, handlers := rows }

/-- `ready` with another context. -/
def inCtx (st : FsmState) (c : Option Nat) (sub : Option Byte) (d : Definition) (rx : List Byte) : State :=
  { ready with ctx := ⟨st, c, sub, d, Memory.writeBytes [] 0 rx, rx.length, checksum rx, []⟩ }

/-- V32, V35, V52: one byte 0xAA for command 1, the checksum word to come. -/
def echoDue : State := inCtx .expectingChecksum (some 1) none (boundDef 1 none 1 (some 1)) [0xAA]

/-- V27: the response to `echoDue` is sent. -/
def echoDone : State := { echoDue with ctx := { echoDue.ctx with state := .waitingAck, txBuf := [(0, 0xAA)] } }

/-- V28: command 3 after one byte. -/
def filling : State := inCtx .receivingData (some 3) none (boundDef 3 none 3 (some 4)) [0x10]

/-- V29: the sentinel of command 2 after one byte. -/
def atSentinel : State := inCtx .receivingData (some 2) none (sentinelDef 2) [0x10]

/-- V34: command 8, whose length 40 no buffer holds, with 36 bytes stored. -/
def full : State := inCtx .receivingData (some 8) none (boundDef 8 none 40 (some 1)) (List.replicate 36 0x00)

/-- A frame without payload whose checksum word is to come. -/
def emptyDue (c : Nat) (h : Option Nat) : State := inCtx .expectingChecksum (some c) none (boundDef c none 0 h) []

/-- A context that diverged from its latched definition (V37). -/
def corrupted : State := { echoDue with ctx := { echoDue.ctx with curCmd := some 2 } }

/-- Only TX matters to the transmitter. -/
def withTx (tx : Memory) : State := { ready with ctx := { ready.ctx with txBuf := tx } }

/-- The state after an operation; the state before it where it has no result. -/
def after (i : Instr) (s : State) : State :=
  match exec i s with
  | .next t => t
  | .fault _ => s
  | .refused _ => s

/-- The state after one step on a word. -/
def afterWord (w : Nat) (s : State) : State :=
  match step (s.withFetchWord 9 w) with
  | .next t => t
  | .fault _ => s
  | .refused _ => s

/-- The words an operation transmits, as numbers. -/
def sent (t : State) : List Nat :=
  t.trace.filterMap fun
    | .tx w => some w.toNat
    | .log _ => none
    | .call _ => none

/-! Well-formedness: one ill-formed term for each check. -/

theorem wf_addrCmd_command : (Instr.addrCmd 16).wf Config.vectors = false := by decide
theorem wf_addrOther_address : (Instr.addrOther 16 0).wf Config.vectors = false := by decide
theorem wf_addrOther_own_address : (Instr.addrOther 1 0).wf Config.vectors = false := by decide
theorem wf_addrOther_command : (Instr.addrOther 2 16).wf Config.vectors = false := by decide
theorem wf_registerSub_command : (Instr.registerSub 16 0 0 none).wf Config.vectors = false := by decide
theorem wf_registerSub_handler : (Instr.registerSub 0 0 0 (some 256)).wf Config.vectors = false := by decide
theorem wf_registerNosub_command : (Instr.registerNosub 16 0 none).wf Config.vectors = false := by decide
theorem wf_registerNosub_handler : (Instr.registerNosub 0 0 (some 256)).wf Config.vectors = false := by decide
theorem wf_lookup_command : (Instr.lookup 16 none).wf Config.vectors = false := by decide
theorem wf_transmit_count : (Instr.transmit 37).wf Config.vectors = false := by decide

/-! Decoding: words written out from the formats of 30_encoding.md. -/

theorem decode_addrCmd : decode Config.vectors .expectingChecksum 0b1_0001_0001#9 = .addrCmd 1 := by decide
theorem decode_addrOther : decode Config.vectors .receivingData 0b1_0010_0011#9 = .addrOther 2 3 := by decide
theorem decode_data : decode Config.vectors .receivingData 0b0_1111_0101#9 = .data 0xF5 := by decide
theorem decode_chk : decode Config.vectors .expectingChecksum 0b0_1010_1010#9 = .chk 0xAA := by decide
theorem decode_dataIgn_idle : decode Config.vectors .idle 0b0_0101_0101#9 = .dataIgn 0x55 := by decide
theorem decode_dataIgn_waiting : decode Config.vectors .waitingAck 0b0_0000_0000#9 = .dataIgn 0x00 := by decide
theorem decode_txData : decodeTx Config.vectors false 0b0_1111_0000#9 = .ok (.txData 0xF0) := rfl
theorem decode_txChk : decodeTx Config.vectors true 0b1_0001_0001#9 = .ok (.txChk 0x11) := rfl
theorem decode_txAck : decodeTx Config.vectors false 0b1_0000_0000#9 = .ok .txAck := rfl
theorem decode_txNack : decodeTx Config.vectors false 0b1_1111_1111#9 = .ok .txNack := rfl
theorem decodeTx_rejects : decodeTx Config.vectors false 0b1_0101_0101#9 = .error .noSuchTerminator := rfl

/-- With `CMD_W = 3` the command field is bits 2:0 and the address field bits 7:3. -/
theorem decode_three_bit_command :
    decode { Config.vectors with cmdW := 3, devAddr := 2 } .idle 0b1_00010_111#9 = .addrCmd 7 := by decide

/-- A host or internal operation has no word. -/
theorem encode_none :
    [Instr.registerSub 1 0 0 none, .registerNosub 1 0 none, .lookup 1 none, .ctxReset, .hwReset, .chk8 [],
      .chkAdd 0 0, .chkVerify 0 0, .dispatch, .transmit 0].all (fun i => (encode Config.vectors i).isNone) = true := by
  decide

theorem encode_words :
    [encode Config.vectors (.addrCmd 15), encode Config.vectors (.addrOther 2 3), encode Config.vectors (.data 0xF5),
      encode Config.vectors (.txChk 0xAA), encode Config.vectors .txAck, encode Config.vectors .txNack] =
    [some 0b1_0001_1111#9, some 0b1_0010_0011#9, some 0b0_1111_0101#9,
      some 0b1_1010_1010#9, some 0b1_0000_0000#9, some 0b1_1111_1111#9] := by decide

theorem decodeTableWord_addrCmd : decodeTableWord 9 0b1_0001_0001 = some (.addrCmd 1) := by decide

/-- The word put in front is the one the next step runs. -/
theorem fetch_runs_the_word (n w : Nat) (s : State) :
    step (s.withFetchWord n w) = exec (decode s.cfg s.ctx.state (wordOfCarrier (w % 2 ^ n))) s := rfl

/-! Reset, and the numberings. -/

theorem reset_memory_wf : State.reset.ctx.rxBuf.wf ∧ State.reset.ctx.txBuf.wf ∧ State.reset.reg.wf := by decide

theorem ready_reg_wf : regs.wf := by decide

theorem state_codes : [FsmState.idle, .receivingData, .expectingChecksum, .waitingAck].map FsmState.code = [0, 1, 2, 3] := by
  decide

theorem error_codes :
    [ErrorKind.unrecognizedCommand, .checksumMismatch, .dispatchInconsistency, .frameTooLong].map ErrorKind.code =
      [1, 2, 3, 4] := by decide

/-! One step of each operation. -/

/-- V21. -/
theorem test_addrCmd_registered :
    (afterWord 0x111 ready).ctx =
      { Context.init with state := .receivingData, curCmd := some 1, defn := boundDef 1 none 1 (some 1) } := by decide

/-- V22. -/
theorem test_addrCmd_unregistered :
    (afterWord 0x11F filling).ctx = Context.init ∧
      (afterWord 0x11F filling).trace = [.log (.unrecognizedCommand 15 none)] := by decide

/-- V24, V33. -/
theorem test_addrOther : afterWord 0x123 filling = filling ∧ afterWord 0x1AA echoDue = echoDue := by decide

/-- V28: the byte goes to RX[1] and the sum wraps. -/
theorem test_data_stores :
    (afterWord 0x0F5 filling).ctx.rxBuf = [(0, 0x10), (1, 0xF5)] ∧ (afterWord 0x0F5 filling).ctx.chk = 0x05 ∧
      (afterWord 0x0F5 filling).ctx.rxIdx = 2 ∧ (afterWord 0x0F5 filling).ctx.state = .receivingData := by decide

/-- V29 and P6 part c's error at the capacity of V34. -/
theorem test_data_selects_or_overflows :
    (afterWord 0x001 atSentinel).ctx.curSub = some 1 ∧
      (afterWord 0x001 atSentinel).ctx.defn = boundDef 2 (some 1) 5 (some 3) ∧
      (afterWord 0x000 full).ctx = Context.init ∧
      (afterWord 0x000 full).trace = [.log (.frameTooLong (some 8) none 36)] := by decide

/-- V35, P1 step 3. -/
theorem test_chk_dispatches :
    (afterWord 0x0AA echoDue).trace =
        [.call ⟨1, 1, none, padded [0xAA], 1⟩, .tx 0x0AA, .tx 0x1AA] ∧
      (afterWord 0x0AA echoDue).ctx = echoDone.ctx := by decide

/-- V53: the LOG comes first, then the word of the NACK policy. -/
theorem test_chk_mismatch :
    (afterWord 0x0AB { echoDue with cfg := { Config.vectors with chkFailPolicy := .nack } }).trace =
      [.log (.checksumMismatch (some 1) none [0xAA] 0xAB 0xAA), .tx 0x1FF] := by decide

/-- V26, V27. -/
theorem test_dataIgn : afterWord 0x055 ready = ready ∧ afterWord 0x000 echoDone = echoDone := by decide

/-- V43: the first payload word. -/
theorem test_txData : sent (after (.txData 0xF0) ready) = [0x0F0] := by decide

/-- V43: the checksum word. -/
theorem test_txChk : sent (after (.txChk 0x11) ready) = [0x111] := by decide

/-- V40. -/
theorem test_txAck : sent (after .txAck ready) = [0x100] := by decide

/-- V41. -/
theorem test_txNack : sent (after .txNack ready) = [0x1FF] := by decide

/-- V19: the parent slot becomes a sentinel and loses its handler. -/
theorem test_registerSub :
    (after (.registerSub 1 7 4 (some 9)) ready).reg.slot 1 none = ⟨true, 1, none, 0, true, none⟩ ∧
      (after (.registerSub 1 7 4 (some 9)) ready).reg.slot 1 (some 7) = ⟨true, 1, some 7, 4, false, some 9⟩ := by
  decide

/-- V20: a plain registration leaves the subcommand entries stored. -/
theorem test_registerNosub :
    (after (.registerNosub 2 0 (some 9)) ready).reg.slot 2 none = ⟨true, 2, none, 0, false, some 9⟩ ∧
      (after (.registerNosub 2 0 (some 9)) ready).reg.slot 2 (some 1) = ⟨true, 2, some 1, 5, false, some 3⟩ := by
  decide

/-- V16, V17. -/
theorem test_lookup :
    (after (.lookup 2 none) ready).result = .found (some ⟨true, 2, none, 0, true, none⟩) ∧
      (after (.lookup 2 (some 2)) ready).result = .found none := by decide

/-- V49: the registry stays. -/
theorem test_ctxReset : after .ctxReset filling = ready := by decide

/-- V51. -/
theorem test_hwReset :
    (afterWord 0x111 (after .hwReset filling)).trace = [.log (.unrecognizedCommand 1 none)] ∧
      (after .hwReset filling).reg = [] := by decide

/-- V4, V7. -/
theorem test_chk8 :
    (after (.chk8 [0xFF, 0xFF]) ready).result = .byte 0xFE ∧
      (after (.chk8 [0x10, 0x01, 0x02, 0x03, 0x04]) ready).result = .byte 0x1A := by decide

/-- V9. -/
theorem test_chkAdd : (after (.chkAdd 0xFF 0x01) ready).result = .byte 0x00 := by decide

/-- V11, V12. -/
theorem test_chkVerify :
    (after (.chkVerify 0xAA 0xAA) ready).result = .verdict true ∧
      (after (.chkVerify 0xAA 0xAB) ready).result = .verdict false := by decide

/-- V36, V37. -/
theorem test_dispatch_inconsistent :
    (after .dispatch (emptyDue 7 none)).trace = [.log (.dispatchInconsistency .noHandler (some 7) none)] ∧
      (after .dispatch corrupted).trace = [.log (.dispatchInconsistency .mismatch (some 2) none)] := by decide

/-- V38: the call stays, nothing is transmitted. -/
theorem test_dispatch_too_long :
    (after .dispatch (emptyDue 9 (some 6))).trace =
      [.call ⟨6, 9, none, padded [], 0⟩, .log (.frameTooLong (some 9) none 37)] := by decide

/-- V40, V43, V46. -/
theorem test_transmit_accepted :
    sent (after (.transmit 0) (withTx [])) = [0x100] ∧
      sent (after (.transmit 3) (withTx [(0, 0xF0), (1, 0x20), (2, 0x01)])) = [0x0F0, 0x020, 0x001, 0x111] ∧
      sent (after (.transmit 2) (withTx [(0, 0x80), (1, 0x80)])) = [0x080, 0x080, 0x100] := by decide

/-- V41, V45, V47: the sentinel counts in place 0 alone. -/
theorem test_transmit_rejected :
    sent (after (.transmit 0) (withTx [(0, 0xFF)])) = [0x1FF] ∧
      sent (after (.transmit 2) (withTx [(0, 0xFF), (1, 0x05)])) = [0x0FF, 0x005, 0x1FF] ∧
      sent (after (.transmit 2) (withTx [(0, 0x05), (1, 0xFF)])) = [0x005, 0x0FF, 0x104] := by decide

/-! The hypotheses of each obligation are met. -/

theorem inv_ready : Inv ready := ⟨by decide, by decide, by decide, by decide, by decide, by decide, by decide⟩
theorem inv_echoDue : Inv echoDue := ⟨by decide, by decide, by decide, by decide, by decide, by decide, by decide⟩
theorem inv_filling : Inv filling := ⟨by decide, by decide, by decide, by decide, by decide, by decide, by decide⟩
theorem inv_atSentinel : Inv atSentinel := ⟨by decide, by decide, by decide, by decide, by decide, by decide, by decide⟩
theorem inv_full : Inv full := ⟨by decide, by decide, by decide, by decide, by decide, by decide, by decide⟩

/-- Two-valued command field, and one address bit: the edges of `CMD_W`. -/
def narrow : Config := { Config.vectors with cmdW := 1, devAddr := 127 }
def wide : Config := { Config.vectors with cmdW := 7, devAddr := 1, nSub := 2 }

/-- `s` before an event. -/
def before (ev : InputEvent) (s : State) : State := { s with inputs := [ev] }

/-- The state one step later; the state itself where the step has no result. -/
def stepped (s : State) : State :=
  match step s with
  | .next t => t
  | .fault _ => s
  | .refused _ => s

theorem witness_DecodeOfEncodedReceivedWord :
    [(Config.vectors, FsmState.waitingAck, Instr.addrCmd 15, 0x11F#9), (narrow, .idle, .addrCmd 1, 0x1FF#9),
        (wide, .idle, .addrOther 0 127, 0x17F#9), (Config.vectors, .receivingData, .data 0xFF, 0x0FF#9),
        (Config.vectors, .expectingChecksum, .chk 0x00, 0x000#9), (Config.vectors, .idle, .dataIgn 0x80, 0x080#9)].all
      (fun x => decide x.1.Legal && x.2.2.1.wf x.1 && x.2.2.1.receivedIn x.2.1 &&
        decide (encode x.1 x.2.2.1 = some x.2.2.2)) = true := by decide

theorem witness_EveryReceivedWordIsItsOperationsWord : Config.vectors.Legal ∧ narrow.Legal ∧ wide.Legal := by decide

theorem witness_TransmittedWordsDecodeBack :
    Config.vectors.Legal ∧ (0x55 : Byte) ≠ Config.vectors.ackCode ∧ (0x55 : Byte) ≠ Config.vectors.nackCode := by decide

theorem witness_StepRunsTheOperationOfTheFirstEvent :
    (before .hwReset ready).inputs = [.hwReset] ∧ (before .ctxReset ready).inputs = [.ctxReset] ∧
      (before (.register 1 (some 0xFF) 4 none) ready).inputs = [.register 1 (some 0xFF) 4 none] ∧
      (before (.register 1 none 4 (some 9)) ready).inputs = [.register 1 none 4 (some 9)] ∧
      (before (.rxWord 0x111) ready).inputs = [.rxWord 0x111] := by decide

/-- One word for each clause, at the edges of the fields. -/
theorem witness_ReceivedWordRunsExactlyItsClassRule :
    (0x11F / 256 % 2 = 1 ∧ 0x11F % 256 / 2 ^ ready.cfg.cmdW = ready.cfg.devAddr) ∧
      (0x120 / 256 % 2 = 1 ∧ 0x120 % 256 / 2 ^ ready.cfg.cmdW ≠ ready.cfg.devAddr) ∧
      (0x10F / 256 % 2 = 1 ∧ 0x10F % 256 / 2 ^ ready.cfg.cmdW ≠ ready.cfg.devAddr) ∧
      (0x0FF / 256 % 2 = 0 ∧ filling.ctx.state = .receivingData) ∧
      (0x000 / 256 % 2 = 0 ∧ echoDue.ctx.state = .expectingChecksum) ∧
      (0x200 / 256 % 2 = 0 ∧ ready.ctx.state = .idle ∧ echoDone.ctx.state = .waitingAck) := by decide

theorem witness_NothingHappensWithoutAnEvent : State.reset.inputs = [] := rfl

/-- A plain command, one of length 0, a sentinel. -/
theorem witness_RegisteredCommandStartsAFreshFrame :
    (ready.reg.slot 1 none).valid = true ∧ (ready.reg.slot 2 none).hasSub = true ∧
      (ready.reg.slot 2 none).valid = true ∧ (ready.reg.slot 4 none).valid = true ∧
      (ready.reg.slot 4 none).expLen = 0 := by decide

theorem witness_UnregisteredCommandIsLoggedAndDiscarded :
    (State.reset.reg.slot 0 none).valid = false ∧ (ready.reg.slot 15 none).valid = false := by decide

/-- The first and the last place of RX, and a sentinel's first byte. -/
theorem witness_PayloadByteIsStoredAndSummed :
    (filling.ctx.rxBuf.wf ∧ filling.ctx.rxIdx < filling.cfg.rxCap ∧
        ¬(filling.ctx.rxIdx = 1 ∧ filling.ctx.defn.hasSub = true)) ∧
      (let s := after (.addrCmd 2) ready
       s.ctx.rxBuf.wf ∧ s.ctx.rxIdx < s.cfg.rxCap ∧ ¬(s.ctx.rxIdx = 1 ∧ s.ctx.defn.hasSub = true)) ∧
      (let s := inCtx .receivingData (some 8) none (boundDef 8 none 40 (some 1)) (List.replicate 35 0xFF)
       s.ctx.rxBuf.wf ∧ s.ctx.rxIdx < s.cfg.rxCap ∧ ¬(s.ctx.rxIdx = 1 ∧ s.ctx.defn.hasSub = true)) := by decide

theorem witness_SecondByteSelectsTheSubcommand :
    atSentinel.ctx.rxBuf.wf ∧ atSentinel.ctx.rxIdx = 1 ∧ 1 < atSentinel.cfg.rxCap ∧
      atSentinel.ctx.defn.hasSub = true ∧ atSentinel.ctx.curCmd = some 2 ∧
      (0x01 : Byte).toNat < atSentinel.cfg.nSub ∧ (atSentinel.reg.slot 2 (some 0x01)).valid = true := by decide

/-- An unregistered slot, and the first subcommand outside a smaller table. -/
theorem witness_UnregisteredSubcommandIsLoggedAndDiscarded :
    (atSentinel.ctx.rxIdx = 1 ∧ 1 < atSentinel.cfg.rxCap ∧ atSentinel.ctx.defn.hasSub = true ∧
        atSentinel.ctx.curCmd = some 2 ∧ (atSentinel.reg.slot 2 (some 0x02)).valid = false) ∧
      (let s := { atSentinel with cfg := { Config.vectors with nSub := 1 } }
       s.ctx.rxIdx = 1 ∧ 1 < s.cfg.rxCap ∧ s.ctx.defn.hasSub = true ∧ s.ctx.curCmd = some 2 ∧
        s.cfg.nSub ≤ (0x01 : Byte).toNat) := by decide

theorem witness_FullBufferIsFrameTooLong : full.ctx.rxIdx = full.cfg.rxCap := by decide

/-- What the dispatch statements ask of a state: the call of V35. -/
theorem witness_RightChecksumCallsTheHandlerAndAnswers :
    echoDue.cfg.Legal ∧ echoDue.ctx.txBuf.wf ∧ echoDue.ctx.curCmd = some echoDue.ctx.defn.cmd ∧
      echoDue.ctx.curSub = echoDue.ctx.defn.sub ∧ echoDue.ctx.defn.handler = some 1 ∧
      handlerReply echoDue.handlers
        ⟨1, echoDue.ctx.defn.cmd, echoDue.ctx.curSub, echoDue.ctx.rxBuf.bytes echoDue.cfg.rxCap, echoDue.ctx.rxIdx⟩ =
        .returns ⟨1, [0xAA]⟩ ∧ 1 ≤ echoDue.cfg.txCap := by decide

theorem witness_WrongChecksumIsLoggedWithTheFrame : (0xAB : Byte) ≠ echoDue.ctx.chk := by decide

theorem witness_AddressedCommandForgetsThePast :
    filling.cfg = echoDue.cfg ∧ filling.reg = echoDue.reg ∧ filling.ctx ≠ echoDue.ctx ∧
      exec (.addrCmd 1) filling = .next (after (.addrCmd 1) filling) ∧
      exec (.addrCmd 1) echoDue = .next (after (.addrCmd 1) echoDue) := ⟨rfl, rfl, by decide, rfl, rfl⟩

/-- Each of the three events. -/
theorem witness_WaitingAckIsLeftOnlyByCommandOrReset :
    echoDone.ctx.state = .waitingAck ∧
      (let s := before .hwReset echoDone
       step s = .next (stepped s) ∧ (stepped s).ctx ≠ s.ctx) ∧
      (let s := before .ctxReset echoDone
       step s = .next (stepped s) ∧ (stepped s).ctx ≠ s.ctx) ∧
      (let s := before (.rxWord 0x111) echoDone
       step s = .next (stepped s) ∧ (stepped s).ctx ≠ s.ctx) :=
  ⟨rfl, ⟨rfl, by decide⟩, ⟨rfl, by decide⟩, ⟨rfl, by decide⟩⟩

theorem witness_WaitingAckIsEnteredWithAResponse :
    let s := before (.rxWord 0x0AA) echoDue
    Inv s ∧ step s = .next (stepped s) ∧ s.ctx.state ≠ .waitingAck ∧ (stepped s).ctx.state = .waitingAck :=
  ⟨inv_echoDue, rfl, by decide, by decide⟩

/-- Subcommand 1 of command 11 with its length 1 after two bytes, and with the buffer full. -/
def shortEntry (n : Nat) : State :=
  inCtx .receivingData (some 11) (some 1) (boundDef 11 (some 1) 1 (some 1)) (List.replicate n 0x01)

theorem witness_ShortSubcommandEntryNeverCompletes :
    (Inv (shortEntry 2) ∧ (shortEntry 2).ctx.state = .receivingData ∧ (shortEntry 2).ctx.defn.hasSub = false ∧
        (shortEntry 2).ctx.defn.expLen.toNat < (shortEntry 2).ctx.rxIdx ∧
        exec (.data 0x0A) (shortEntry 2) = .next (after (.data 0x0A) (shortEntry 2))) ∧
      (Inv (shortEntry 36) ∧ (shortEntry 36).ctx.rxIdx = (shortEntry 36).cfg.rxCap ∧
        exec (.data 0x0A) (shortEntry 36) = .next (after (.data 0x0A) (shortEntry 36))) :=
  ⟨⟨⟨by decide, by decide, by decide, by decide, by decide, by decide, by decide⟩, rfl, rfl,
      by decide, rfl⟩, ⟨⟨by decide, by decide, by decide, by decide, by decide, by decide, by decide⟩, rfl, rfl⟩⟩

theorem witness_OverlongEntryNeverCompletes :
    Inv full ∧ full.ctx.state = .receivingData ∧ full.ctx.defn.hasSub = false ∧
      full.cfg.rxCap < full.ctx.defn.expLen.toNat ∧ exec (.data 0x00) full = .next (after (.data 0x00) full) :=
  ⟨inv_full, rfl, rfl, by decide, rfl⟩

theorem witness_InconsistentDispatchDropsTheFrame :
    corrupted.ctx.curCmd ≠ some corrupted.ctx.defn.cmd ∧
      (emptyDue 7 none).ctx.curCmd = some (emptyDue 7 none).ctx.defn.cmd ∧
      (emptyDue 7 none).ctx.curSub = (emptyDue 7 none).ctx.defn.sub ∧
      (emptyDue 7 none).ctx.defn.handler = none := by decide

/-- The largest count that fits is allowed. -/
theorem witness_DispatchCallsTheHandlerAndAnswers :
    let s := { emptyDue 9 (some 6) with handlers := [⟨⟨6, 9, none, padded [], 0⟩, .returns ⟨36, []⟩⟩] }
    s.cfg.Legal ∧ s.ctx.txBuf.wf ∧ s.ctx.curCmd = some s.ctx.defn.cmd ∧ s.ctx.curSub = s.ctx.defn.sub ∧
      s.ctx.defn.handler = some 6 ∧
      handlerReply s.handlers ⟨6, s.ctx.defn.cmd, s.ctx.curSub, s.ctx.rxBuf.bytes s.cfg.rxCap, s.ctx.rxIdx⟩ =
        .returns ⟨36, []⟩ ∧ 36 ≤ s.cfg.txCap := by decide

theorem witness_TooLongResponseIsDropped :
    let s := emptyDue 9 (some 6)
    s.ctx.curCmd = some s.ctx.defn.cmd ∧ s.ctx.curSub = s.ctx.defn.sub ∧ s.ctx.defn.handler = some 6 ∧
      handlerReply s.handlers ⟨6, s.ctx.defn.cmd, s.ctx.curSub, s.ctx.rxBuf.bytes s.cfg.rxCap, s.ctx.rxIdx⟩ =
        .returns ⟨37, []⟩ ∧ s.cfg.txCap < 37 := by decide

theorem witness_HangingHandlerLeavesNoResult :
    let s := emptyDue 10 (some 7)
    s.ctx.curCmd = some s.ctx.defn.cmd ∧ s.ctx.curSub = s.ctx.defn.sub ∧ s.ctx.defn.handler = some 7 ∧
      handlerReply s.handlers ⟨7, s.ctx.defn.cmd, s.ctx.curSub, s.ctx.rxBuf.bytes s.cfg.rxCap, s.ctx.rxIdx⟩ =
        .hangs := by decide

/-- A response, and a response that does not fit. -/
theorem witness_HandlerIsCalledOnceAndOnlyByAnAcceptedFrame :
    (exec (.chk 0xAA) echoDue = .next (after (.chk 0xAA) echoDue) ∧
        (after (.chk 0xAA) echoDue).trace =
          echoDue.trace ++ [.call ⟨1, 1, none, padded [0xAA], 1⟩, .tx 0x0AA, .tx 0x1AA]) ∧
      (exec .dispatch (emptyDue 9 (some 6)) = .next (after .dispatch (emptyDue 9 (some 6))) ∧
        (after .dispatch (emptyDue 9 (some 6))).trace =
          (emptyDue 9 (some 6)).trace ++ [.call ⟨6, 9, none, padded [], 0⟩, .log (.frameTooLong (some 9) none 37)]) :=
  ⟨⟨rfl, by decide⟩, ⟨rfl, by decide⟩⟩

theorem witness_HandlerSeesThePayloadThenZeros :
    Inv echoDue ∧ echoDue.ctx.state = .expectingChecksum ∧
      exec (.chk 0xAA) echoDue = .next (after (.chk 0xAA) echoDue) ∧
      (after (.chk 0xAA) echoDue).trace =
        echoDue.trace ++ [.call ⟨1, 1, none, padded [0xAA], 1⟩, .tx 0x0AA, .tx 0x1AA] :=
  ⟨inv_echoDue, rfl, rfl, by decide⟩

theorem witness_TransmitSendsTheResponse : 0 ≤ ready.cfg.txCap ∧ 36 ≤ ready.cfg.txCap ∧ ready.cfg.txCap < 37 := by decide

theorem witness_PayloadWordsAreSentInOrder : 0 ≤ ready.cfg.txCap ∧ 36 ≤ ready.cfg.txCap := by decide

theorem witness_AcceptedResponseEndsInItsChecksum :
    let s := withTx [(0, 0xFE), (1, 0xFF)]
    0 < 1 ∧ 1 ≤ s.cfg.txCap ∧ 36 ≤ s.cfg.txCap ∧ s.ctx.txBuf.read 0 ≠ s.cfg.negSentinel := by decide

theorem witness_EmptyAcceptedResponseIsTheAckWord : rejected ready.cfg ready.ctx.txBuf = false := by decide

/-- Each clause: a rejected response with no byte and with all of them, a wrong checksum, another error. -/
theorem witness_NackWordIsSentExactlyWhereTheSpecSays :
    (let s := withTx [(0, 0xFF)]
     0 ≤ s.cfg.txCap ∧ 36 ≤ s.cfg.txCap ∧ rejected s.cfg s.ctx.txBuf = true) ∧
      (0xAB : Byte) ≠ echoDue.ctx.chk ∧
      exec (.addrCmd 15) ready = .next (after (.addrCmd 15) ready) ∧
      (after (.addrCmd 15) ready).trace = ready.trace ++ [.log (.unrecognizedCommand 15 none)] ∧
      (LogEntry.unrecognizedCommand 15 none).kind ≠ .checksumMismatch :=
  ⟨by decide, by decide, rfl, by decide, by decide⟩

theorem witness_ResponseIsCountPlusOneWords : 0 ≤ ready.cfg.txCap ∧ 36 ≤ ready.cfg.txCap := by decide

/-- The third clause; the second is met by the state of witness_RightChecksumCallsTheHandlerAndAnswers. -/
theorem witness_InternalOperationsMakeUpTheReceivedOnes :
    filling.ctx.rxIdx < filling.cfg.rxCap ∧ filling.ctx.defn.hasSub = false ∧
      exec (.data 0xF5) filling = .next (after (.data 0xF5) filling) ∧
      exec (.chkAdd filling.ctx.chk 0xF5) filling = .next (after (.chkAdd filling.ctx.chk 0xF5) filling) ∧
      (after (.chkAdd filling.ctx.chk 0xF5) filling).result = .byte 0x05 := ⟨by decide, rfl, rfl, rfl, by decide⟩

/-- `filling` under the policy that performs a registration outside Idle. -/
def performing : State := { filling with cfg := { Config.vectors with registerPolicy := .perform } }

theorem witness_SubcommandRegistrationWritesTwoSlots :
    (ready.reg.wf ∧ 15 < 2 ^ ready.cfg.cmdW ∧ (∀ id ∈ some 255, id < 2 ^ ready.cfg.hidW) ∧
        (0xFF : Byte).toNat < ready.cfg.nSub ∧ ready.ctx.state = .idle) ∧
      (performing.reg.wf ∧ 0 < 2 ^ performing.cfg.cmdW ∧ (0x00 : Byte).toNat < performing.cfg.nSub ∧
        performing.ctx.state ≠ .idle ∧ performing.cfg.registerPolicy = .perform) := by decide

theorem witness_PlainRegistrationWritesOneSlot :
    (ready.reg.wf ∧ 15 < 2 ^ ready.cfg.cmdW ∧ (∀ id ∈ some 255, id < 2 ^ ready.cfg.hidW) ∧
        ready.ctx.state = .idle) ∧
      (performing.reg.wf ∧ 0 < 2 ^ performing.cfg.cmdW ∧ performing.ctx.state ≠ .idle ∧
        performing.cfg.registerPolicy = .perform) := by decide

theorem witness_LastRegistrationWins :
    let t := after (.registerNosub 1 2 (some 9)) ready
    let u := after (.registerSub 1 7 4 (some 9)) ready
    ready.reg.wf ∧ exec (.registerNosub 1 2 (some 9)) ready = .next t ∧
      exec (.registerNosub 1 3 none) t = .next (after (.registerNosub 1 3 none) t) ∧ (7 : Byte).toNat < ready.cfg.nSub ∧
      exec (.registerSub 1 7 4 (some 9)) ready = .next u ∧
      exec (.registerSub 1 7 5 none) u = .next (after (.registerSub 1 7 5 none) u) ∧
      Instr.addrCmd 1 ≠ .hwReset ∧ (ready.reg.slot 1 none).valid = true ∧
      exec (.addrCmd 1) ready = .next (after (.addrCmd 1) ready) :=
  ⟨by decide, rfl, rfl, by decide, rfl, rfl, by decide, by decide, rfl⟩

theorem witness_RegistrationWithoutASlotWritesNothing :
    let s := { ready with cfg := { Config.vectors with nSub := 2 } }
    15 < 2 ^ s.cfg.cmdW ∧ (∀ id ∈ some 255, id < 2 ^ s.cfg.hidW) ∧ s.cfg.nSub ≤ (0x02 : Byte).toNat ∧
      s.ctx.state = .idle := by decide

theorem witness_RegistrationIsRefusedInTraffic :
    (15 < 2 ^ filling.cfg.cmdW ∧ (∀ id ∈ some 255, id < 2 ^ filling.cfg.hidW) ∧ filling.ctx.state ≠ .idle ∧
        filling.cfg.registerPolicy = .refuse) ∧
      2 ^ filling.cfg.cmdW ≤ 16 ∧ 2 ^ filling.cfg.hidW ≤ 256 := by decide

theorem witness_OnlyRegisterAndHardwareResetWriteTheRegistry :
    (exec .hwReset ready = .next (after .hwReset ready) ∧ (after .hwReset ready).reg ≠ ready.reg) ∧
      (let s := before (.rxWord 0x111) ready
       step s = .next (stepped s)) ∧
      (let s := before .ctxReset filling
       step s = .next (stepped s)) := ⟨⟨rfl, by decide⟩, rfl, rfl⟩

/-- Found and not found; the first subcommand outside a smaller table. -/
theorem witness_LookupAnswersTheSlot :
    ((ready.reg.slot 2 (some 0x01)).valid = true ∧ (∀ b ∈ some (0x01 : Byte), b.toNat < ready.cfg.nSub)) ∧
      (ready.reg.slot 2 (some 0x02)).valid = false ∧
      (let s := { ready with cfg := { Config.vectors with nSub := 1 } }
       s.cfg.nSub ≤ (0x01 : Byte).toNat) := by decide

theorem witness_ChecksumIsTheSumModulo256 : [(0x01 : Byte), 0x02].Perm [0x02, 0x01] := by decide

theorem witness_AccumulatingGivesTheChecksum :
    let t := after (.chk8 [0xFF]) ready
    exec (.chk8 [0xFF]) ready = .next t ∧ t.result = .byte 0xFF ∧
      exec (.chkAdd 0xFF 0x01) ready = .next (after (.chkAdd 0xFF 0x01) ready) ∧
      (after (.chkAdd 0xFF 0x01) ready).result = .byte 0x00 := ⟨rfl, by decide, rfl, by decide⟩

theorem witness_VerifyAcceptsExactlyTheSum :
    exec (.chk 0xAA) echoDue = .next (after (.chk 0xAA) echoDue) ∧
      exec (.chk 0xAB) echoDue = .next (after (.chk 0xAB) echoDue) := ⟨rfl, rfl⟩

theorem witness_HardwareResetUnregistersEveryCommand :
    exec .hwReset filling = .next (after .hwReset filling) := rfl

/-- Every strobe at once; a word with `CTX.RESET` and no registration; a word alone. -/
theorem witness_CoincidingStrobesAreOrdered :
    strobeEvents ⟨true, true, some ⟨1, none, 1, none⟩, some 0x111⟩ = [.hwReset] ∧
      strobeEvents ⟨false, true, none, some 0x111⟩ = [.ctxReset, .rxWord 0x111] ∧
      strobeEvents ⟨false, false, none, some 0x111⟩ = [.rxWord 0x111] := by decide

/-- A state with a frame in progress meets the invariant, and a step from it has a result. -/
theorem witness_InvariantIsKeptByEveryStep :
    (let s := before (.rxWord 0x0F5) filling
     Inv s ∧ step s = .next (stepped s)) ∧
      (let s := before (.rxWord 0x001) atSentinel
       Inv s ∧ step s = .next (stepped s)) := ⟨⟨inv_filling, rfl⟩, ⟨inv_atSentinel, rfl⟩⟩

theorem witness_StepNeverStopsWhenTheEnvironmentKeepsItsDuties :
    (let s := before (.register 1 none 1 (some 255)) { ready with handlers := [] }
     Inv s ∧ HostDuty s ∧ HandlersReturn s) ∧
      (let s := before (.rxWord 0x0AA) { echoDue with handlers := [] }
       Inv s ∧ HostDuty s ∧ HandlersReturn s) :=
  ⟨⟨inv_ready, ⟨rfl, rfl⟩, by decide⟩, ⟨inv_echoDue, trivial, by decide⟩⟩

theorem witness_StepTakesOneEventAndAppendsOutputs :
    let s := before (.rxWord 0x0AA) echoDue
    step s = .next (stepped s) := rfl

/-- Each shape: an error alone, and one after a call. -/
theorem witness_EveryErrorIsLoggedOnceAndRecovered :
    (exec (.addrCmd 15) ready = .next (after (.addrCmd 15) ready) ∧
        (after (.addrCmd 15) ready).trace = ready.trace ++ [.log (.unrecognizedCommand 15 none)]) ∧
      (exec .dispatch (emptyDue 9 (some 6)) = .next (after .dispatch (emptyDue 9 (some 6))) ∧
        (after .dispatch (emptyDue 9 (some 6))).trace =
          (emptyDue 9 (some 6)).trace ++ [.call ⟨6, 9, none, padded [], 0⟩, .log (.frameTooLong (some 9) none 37)]) :=
  ⟨⟨rfl, by decide⟩, ⟨rfl, by decide⟩⟩

theorem witness_WhatIsNotAnErrorIsNotLogged :
    (filling.reg.slot 1 none).valid = true ∧
      (let s := emptyDue 6 (some 8)
       s.cfg.Legal ∧ s.ctx.txBuf.wf ∧ s.ctx.defn.handler = some 8 ∧ s.ctx.curCmd = some s.ctx.defn.cmd ∧
        s.ctx.curSub = s.ctx.defn.sub ∧
        handlerReply s.handlers ⟨8, s.ctx.defn.cmd, s.ctx.curSub, s.ctx.rxBuf.bytes s.cfg.rxCap, s.ctx.rxIdx⟩ =
          .returns ⟨2, [0xFF, 0x05]⟩ ∧ 2 ≤ s.cfg.txCap ∧ outByte ⟨2, [0xFF, 0x05]⟩ 0 = s.cfg.negSentinel ∧
        exec (.chk s.ctx.chk) s = .next (after (.chk s.ctx.chk) s)) :=
  ⟨by decide, by decide, by decide, rfl, rfl, rfl, by decide, by decide, by decide, rfl⟩

/-- P1, begun in the middle of another frame. -/
theorem witness_CompleteFrameReachesItsHandlerExactlyOnce :
    let s := { filling with inputs := frameEvents Config.vectors 1 [0xAA] 0xAA }
    Inv s ∧ 1 < s.cfg.nCmd ∧ (s.reg.slot 1 none).valid = true ∧ (s.reg.slot 1 none).hasSub = false ∧
      (s.reg.slot 1 none).expLen.toNat = [(0xAA : Byte)].length ∧ (s.reg.slot 1 none).handler = some 1 ∧
      [(0xAA : Byte)].length ≤ s.cfg.rxCap ∧
      s.inputs = frameEvents s.cfg 1 [0xAA] (BitVec.ofNat 8 ([(0xAA : Byte)].map BitVec.toNat).sum) ++ [] ∧
      handlerReply s.handlers ⟨1, 1, none, [0xAA] ++ List.replicate (s.cfg.rxCap - [(0xAA : Byte)].length) 0x00,
        [(0xAA : Byte)].length⟩ = .returns ⟨1, [0xAA]⟩ ∧ 1 ≤ s.cfg.txCap := ⟨inv_filling, by decide⟩

/-- P3 step 1 to 3. -/
theorem witness_FrameWithAWrongSumCallsNoHandler :
    let s := { ready with inputs := frameEvents Config.vectors 1 [0xAA] 0xAB }
    Inv s ∧ 1 < s.cfg.nCmd ∧ (s.reg.slot 1 none).valid = true ∧ (s.reg.slot 1 none).hasSub = false ∧
      (s.reg.slot 1 none).expLen.toNat = [(0xAA : Byte)].length ∧ [(0xAA : Byte)].length ≤ s.cfg.rxCap ∧
      (0xAB : Byte).toNat ≠ ([(0xAA : Byte)].map BitVec.toNat).sum % 256 ∧
      s.inputs = frameEvents s.cfg 1 [0xAA] 0xAB ++ [] := ⟨inv_ready, by decide⟩

/-- P2 steps 1 to 7. -/
theorem witness_SubcommandFrameTakesTheSubcommandsLength :
    let s := { ready with inputs := frameEvents Config.vectors 2 [0x10, 0x01, 0x02, 0x03, 0x04] 0x1A }
    Inv s ∧ 2 < s.cfg.nCmd ∧ (s.reg.slot 2 none).valid = true ∧ (s.reg.slot 2 none).hasSub = true ∧
      (0x01 : Byte).toNat < s.cfg.nSub ∧ (s.reg.slot 2 (some 0x01)).valid = true ∧
      (s.reg.slot 2 (some 0x01)).expLen.toNat = [(0x02 : Byte), 0x03, 0x04].length + 2 ∧
      (s.reg.slot 2 (some 0x01)).handler = some 3 ∧ [(0x02 : Byte), 0x03, 0x04].length + 2 ≤ s.cfg.rxCap ∧
      s.inputs = frameEvents s.cfg 2 [0x10, 0x01, 0x02, 0x03, 0x04]
        (BitVec.ofNat 8 ([(0x10 : Byte), 0x01, 0x02, 0x03, 0x04].map BitVec.toNat).sum) ++ [] ∧
      handlerReply s.handlers ⟨3, 2, some 0x01,
        [0x10, 0x01, 0x02, 0x03, 0x04] ++ List.replicate (s.cfg.rxCap - ([(0x02 : Byte), 0x03, 0x04].length + 2)) 0x00,
        [(0x02 : Byte), 0x03, 0x04].length + 2⟩ = .returns ⟨0, []⟩ ∧ 0 ≤ s.cfg.txCap := ⟨inv_ready, by decide⟩

end Sys2Proof.Tests
end

section
/-! Which operations write the registry (10_state.md R24). -/

namespace Sys2Proof

variable {i : Instr}

/-- The operations that write the registry (R24): both forms of `REGISTER` (R100, R101) and `HW.RESET` (R151). -/
def Instr.writesRegistry : Instr → Bool
  | .registerSub _ _ _ _ => true
  | .registerNosub _ _ _ => true
  | .hwReset => true
  | _ => false

theorem Instr.writesRegistry_iff :
    i.writesRegistry = true ↔
      i = .hwReset ∨ (∃ c b len h, i = .registerSub c b len h) ∨ ∃ c len h, i = .registerNosub c len h := by
  cases i <;> simp [Instr.writesRegistry]

/-- No received word is a registry write, whatever its bits and the state it arrives in (R72). -/
theorem Instr.writesRegistry_decode (cfg : Config) (st : FsmState) (w : Word9) :
    (decode cfg st w).writesRegistry = false := by
  unfold decode
  split
  · split <;> rfl
  · cases st <;> rfl

end Sys2Proof

namespace Sys2Proof.Machine

open Sys2Proof

variable {i : Instr} {s t : State}

theorem execTransmit_next {n : Nat} (hn : execTransmit n s = .next t) :
    n ≤ s.cfg.txCap ∧ t = transmitResponse n s := by
  unfold execTransmit at hn
  split at hn
  · cases hn
  · cases hn; exact ⟨by omega, rfl⟩

/-- Every other operation leaves the registry as it was: the framer's and the dispatcher's touch the context, the
transmitter's only emit, `LOOKUP` and the Checksum Engine only answer. -/
theorem exec_reg_of_not_writesRegistry (hw : i.writesRegistry = false) (hn : exec i s = .next t) :
    t.reg = s.reg := by
  cases i with
  | registerSub c b len h | registerNosub c len h | hwReset => cases hw
  | addrCmd c => exact (execAddrCmd_same hn).2.1
  | data b => exact (execData_same hn).2.1
  | chk k => exact (execChk_same hn).2.1
  | dispatch => exact (dispatchFrame_same hn).2.1
  | transmit n => obtain ⟨-, rfl⟩ := execTransmit_next hn; exact transmitResponse_reg ..
  | addrOther addr low | dataIgn b => cases hn; rfl
  | txData b | txChk k | txAck | txNack => cases hn; exact State.emit_reg ..
  | lookup c sub | chk8 bytes | chkAdd acc b | chkVerify acc k => cases hn; exact State.withResult_reg ..
  | ctxReset => cases hn; exact contextReset_reg ..

/-- A step that takes an event whose operation writes no registry leaves the registry as it was. -/
theorem step_reg_of_not_writesRegistry {ev : InputEvent} {rest : List InputEvent} (hin : s.inputs = ev :: rest)
    (hw : (instrOfInput s.cfg s.ctx.state ev).writesRegistry = false) (hn : step s = .next t) :
    t.reg = s.reg := by
  unfold step at hn
  rw [hin] at hn
  exact exec_reg_of_not_writesRegistry (s := { s with inputs := rest }) hw hn

/-- Settles O41: a change of the registry rules out every operation but the writers, and neither a received word nor
`CTX.RESET` is one. -/
theorem onlyRegisterAndHardwareResetWriteTheRegistry :
    Obligations.OnlyRegisterAndHardwareResetWriteTheRegistry := by
  constructor
  · intro i s t hn hne
    refine Instr.writesRegistry_iff.mp (eq_true_of_ne_false fun hw => ?_)
    exact hne (exec_reg_of_not_writesRegistry hw hn)
  · rintro s t rest hn (⟨n, hin⟩ | hin)
    · exact step_reg_of_not_writesRegistry hin (Instr.writesRegistry_decode _ _ _) hn
    · exact step_reg_of_not_writesRegistry hin rfl hn

end Sys2Proof.Machine
end

section
/-! What `CHK.VERIFY` accepts, and what the framer's `CHK` logs for it (40_checksum.md R92, 42_framer.md R118). -/

namespace Sys2Proof.Machine

open Sys2Proof

variable {s t : State} {e e' : LogEntry} {evs : List Output}

theorem exec_chkVerify (acc k : Byte) (s : State) :
    exec (.chkVerify acc k) s = .next { s with result := .verdict (decide (k = acc)) } := rfl

/-- An error with no event before it puts its own LOG first (60_exceptions.md R165). -/
theorem ErrorStep.first_log_iff (h : ErrorStep s t [] e) :
    (∃ evs, t.trace = s.trace ++ .log e' :: evs) ↔ e' = e := by
  obtain ⟨-, -, htr⟩ := h
  simp [htr, eq_comm]

/-- A dispatch whose first event is a LOG logs a `DispatchInconsistency`: every other end of it calls the handler first
(43_dispatcher.md R131). -/
theorem dispatchFrame_first_log (hn : dispatchFrame s = .next t) (htr : t.trace = s.trace ++ .log e :: evs) :
    e.kind = .dispatchInconsistency := by
  rcases dispatchFrame_events hn with ⟨r, herr⟩ | ⟨c, count, -, -, -, -, hcall⟩ | ⟨c, ws, -, -, -, hcall⟩
  · rw [(ErrorStep.first_log_iff herr).mp ⟨evs, htr⟩]; rfl
  · simp [hcall] at htr
  · simp [hcall] at htr

/-- `CHK` logs `ChecksumMismatch`, first of all it emits, exactly when the byte is not the running sum (R118). -/
theorem execChk_logs_checksumMismatch_iff {k : Byte} (hn : execChk k s = .next t) :
    (∃ e evs, t.trace = s.trace ++ .log e :: evs ∧ e.kind = .checksumMismatch) ↔ k ≠ s.ctx.chk := by
  rcases execChk_next hn with ⟨heq, hd⟩ | ⟨hne, rfl⟩
  · refine iff_of_false ?_ (not_not_intro heq)
    rintro ⟨e, evs, htr, hkind⟩
    have hdisp : e.kind = .dispatchInconsistency := dispatchFrame_first_log hd htr
    rw [hdisp] at hkind
    cases hkind
  · refine iff_of_true ?_ hne
    obtain ⟨evs, htr⟩ := (ErrorStep.first_log_iff (raise_errorStep_nil _ s)).mpr rfl
    exact ⟨_, evs, htr, rfl⟩

/-- Settles O45: the verdict is the equality itself, so the one byte accepted is the sum; the framer's `CHK` tests the
same equality, and a dispatch logs no mismatch of checksums. -/
theorem verifyAcceptsExactlyTheSum : Obligations.VerifyAcceptsExactlyTheSum := by
  refine ⟨fun acc k s => ?_, fun acc s => ?_, fun k s => ?_, fun k s t hn => ?_⟩
  · exact ⟨decide (k = acc), exec_chkVerify acc k s, decide_eq_true_iff⟩
  · exact ⟨acc, fun k' => exec_chkVerify acc k' s⟩
  · exact exec_chkVerify 0x00 k s
  · exact execChk_logs_checksumMismatch_iff hn

end Sys2Proof.Machine
end

section
/-! What the transmitter sends: the word forms, and a response by its terminator (44_transmitter.md R140 to R143). -/

namespace Sys2Proof.Machine

open Sys2Proof

variable {cfg : Config} {tx : Memory} {n : Nat} {s : State}

theorem toNat_checksum (bytes : List Byte) : (checksum bytes).toNat = (bytes.map BitVec.toNat).sum % 256 :=
  BitVec.toNat_ofNat ..

theorem rejected_eq_false_iff : rejected cfg tx = false ↔ tx.read 0 ≠ cfg.negSentinel :=
  decide_eq_false_iff_not

theorem terminatorByte_of_pos (hn : 0 < n) (hr : rejected cfg tx = false) :
    terminatorByte cfg tx n = checksum (tx.bytes n) := by
  simp [terminatorByte, hr, hn]

theorem terminatorByte_zero (hr : rejected cfg tx = false) : terminatorByte cfg tx 0 = cfg.ackCode := by
  simp [terminatorByte, hr]

/-- `TX.DATA` (R141). -/
theorem exec_txData (b : Byte) (s : State) :
    exec (.txData b) s = .next { s with trace := s.trace ++ [.tx (0#1 ++ b)] } := rfl

/-- `TX.CHK` (R142). -/
theorem exec_txChk (k : Byte) (s : State) :
    exec (.txChk k) s = .next { s with trace := s.trace ++ [.tx (1#1 ++ k)] } := rfl

/-- `TX.ACK` (R143). -/
theorem exec_txAck (s : State) :
    exec .txAck s = .next { s with trace := s.trace ++ [.tx (1#1 ++ s.cfg.ackCode)] } := rfl

/-- The words of a response as events: the bytes with the mode flag clear, then the terminator with it set (R77). -/
theorem map_tx_responseWords (cfg : Config) (tx : Memory) (n : Nat) :
    (responseWords cfg tx n).map Output.tx =
      (tx.bytes n).map (fun b : Byte => .tx (0#1 ++ b)) ++ [.tx (1#1 ++ terminatorByte cfg tx n)] := by
  simp [responseWords, mkWord]

/-- `TRANSMIT` within `TX_CAP` (R140): the events of the response and no other effect (R147). -/
theorem exec_transmit (hn : n ≤ s.cfg.txCap) :
    exec (.transmit n) s =
      .next { s with trace := s.trace ++ (s.ctx.txBuf.bytes n).map (fun b : Byte => .tx (0#1 ++ b)) ++
        [.tx (1#1 ++ terminatorByte s.cfg s.ctx.txBuf n)] } := by
  have hsend : exec (.transmit n) s = .next (transmitResponse n s) := if_neg (Nat.not_lt.mpr hn)
  rw [hsend, transmitResponse, map_tx_responseWords, State.emit, List.append_assoc]

/-- Settles O30: the payload words carry the bytes `0 .. n-1` of TX in index order, whatever the terminator. -/
theorem payloadWordsAreSentInOrder : Obligations.PayloadWordsAreSentInOrder := by
  refine ⟨exec_txData, fun n s hn => ?_⟩
  refine ⟨_, terminatorByte s.cfg s.ctx.txBuf n, exec_transmit hn, ?_⟩
  rw [Memory.bytes, List.map_map]
  rfl

/-- Settles O31: with a byte to sum and no rejection the terminator is the checksum of the payload. -/
theorem acceptedResponseEndsInItsChecksum : Obligations.AcceptedResponseEndsInItsChecksum := by
  refine ⟨exec_txChk, fun n s hpos hn hne => ?_⟩
  have hterm : terminatorByte s.cfg s.ctx.txBuf n = checksum (s.ctx.txBuf.bytes n) :=
    terminatorByte_of_pos hpos (rejected_eq_false_iff.mpr hne)
  refine ⟨s.ctx.txBuf.bytes n, checksum (s.ctx.txBuf.bytes n), rfl, toNat_checksum _, ?_⟩
  rw [exec_transmit hn, hterm]

/-- Settles O32: no payload word comes before the terminator, which is the ACK code. -/
theorem emptyAcceptedResponseIsTheAckWord : Obligations.EmptyAcceptedResponseIsTheAckWord := by
  refine fun s => ⟨exec_txAck s, fun hr => ?_⟩
  have hnil : s.ctx.txBuf.bytes 0 = [] := rfl
  rw [exec_transmit (Nat.zero_le _), terminatorByte_zero hr, hnil, List.map_nil, List.append_nil]

end Sys2Proof.Machine
end

section
/-! The decoder on a word written from its parts, and on the number a transport hands over (30_encoding.md R70 to R73,
R76, R79). -/

namespace Sys2Proof

variable {cfg : Config}

/-- The device's own address in the address field (R72, R112). -/
theorem decode_addressed (hl : cfg.Legal) (st : FsmState) {c : Nat} (hc : c < cfg.nCmd) :
    decode cfg st (mkWord true (addressByte cfg cfg.devAddr c)) = .addrCmd c := by
  have haddr := addrField_mkWord hl hl.2.1 hc true
  have hcmd := cmdField_mkWord hl hl.2.1 hc true
  simp [decode, haddr, hcmd]

/-- Another address in the address field (R72, R113). -/
theorem decode_other (hl : cfg.Legal) (st : FsmState) {addr low : Nat} (ha : addr < 2 ^ cfg.addrW)
    (hne : addr ≠ cfg.devAddr) (hlow : low < cfg.nCmd) :
    decode cfg st (mkWord true (addressByte cfg addr low)) = .addrOther addr low := by
  have haddr := addrField_mkWord hl ha hlow true
  have hcmd := cmdField_mkWord hl ha hlow true
  simp [decode, haddr, hcmd, hne]

section
variable (cfg : Config) (b : Byte)

@[simp] theorem decode_data : decode cfg .receivingData (mkWord false b) = .data b := by simp [decode]

@[simp] theorem decode_chk : decode cfg .expectingChecksum (mkWord false b) = .chk b := by simp [decode]

theorem decode_dataIgn {st : FsmState} (hst : st = .idle ∨ st = .waitingAck) :
    decode cfg st (mkWord false b) = .dataIgn b := by
  rcases hst with rfl | rfl <;> simp [decode]

end

/-- Settles O1: per class, the fields read from the word are the operands it was written from. -/
theorem decodeOfEncodedReceivedWord : Obligations.DecodeOfEncodedReceivedWord := by
  intro cfg st i w hl hwf hrecv henc
  cases i with
  | addrCmd c =>
    cases henc
    exact decode_addressed hl st (of_decide_eq_true hwf)
  | addrOther addr low =>
    cases henc
    simp only [Instr.wf, Bool.and_eq_true, decide_eq_true_eq] at hwf
    obtain ⟨⟨ha, hne⟩, hlow⟩ := hwf
    exact decode_other hl st ha hne hlow
  | data b =>
    cases henc
    obtain rfl : st = .receivingData := of_decide_eq_true hrecv
    exact decode_data cfg b
  | chk k =>
    cases henc
    obtain rfl : st = .expectingChecksum := of_decide_eq_true hrecv
    exact decode_chk cfg k
  | dataIgn b =>
    cases henc
    exact decode_dataIgn cfg b (by simpa [Instr.receivedIn] using hrecv)
  | txData b | txChk k | txAck | txNack => cases hrecv
  | registerSub c s len h | registerNosub c len h | lookup c s | ctxReset | hwReset => cases hrecv
  | chk8 bytes | chkAdd acc b | chkVerify acc k | dispatch | transmit n => cases hrecv

/-- The word of an address byte is rebuilt from its fields. -/
theorem mkWord_addressByte_fields (cfg : Config) {w : Word9} (hm : modeFlag w = true) :
    mkWord true (addressByte cfg (addrField cfg w) (cmdField cfg w)) = w := by
  rw [addressByte_fields, ← hm, mkWord_modeFlag_dataByte]

/-- Settles O2: a mode-set word is rebuilt from its address and command fields, a mode-clear one from its data byte. -/
theorem everyReceivedWordIsItsOperationsWord : Obligations.EveryReceivedWordIsItsOperationsWord := by
  intro cfg st w hl
  by_cases hm : modeFlag w = true
  · have hw := mkWord_addressByte_fields cfg hm
    have hcmd := cmdField_lt cfg w
    by_cases ha : addrField cfg w = cfg.devAddr
    · have hdec : decode cfg st w = .addrCmd (cmdField cfg w) := by simp [decode, hm, ha]
      rw [ha] at hw
      rw [hdec]
      exact ⟨congrArg some hw, decide_eq_true hcmd, rfl⟩
    · have hdec : decode cfg st w = .addrOther (addrField cfg w) (cmdField cfg w) := by simp [decode, hm, ha]
      rw [hdec]
      exact ⟨congrArg some hw, by simp [Instr.wf, ha, hcmd, addrField_lt hl w], rfl⟩
  · have hclear : modeFlag w = false := eq_false_of_ne_true hm
    have hw : mkWord false (dataByte w) = w := by rw [← hclear, mkWord_modeFlag_dataByte]
    rw [← hw]
    cases st with
    | receivingData => rw [decode_data]; exact ⟨rfl, rfl, rfl⟩
    | expectingChecksum => rw [decode_chk]; exact ⟨rfl, rfl, rfl⟩
    | idle => rw [decode_dataIgn cfg _ (.inl rfl)]; exact ⟨rfl, rfl, rfl⟩
    | waitingAck => rw [decode_dataIgn cfg _ (.inr rfl)]; exact ⟨rfl, rfl, rfl⟩

/-- A mode-set word with no payload word before it is one of the two codes or an error (R76). -/
theorem decodeTx_alone (cfg : Config) (k : Byte) :
    decodeTx cfg false (mkWord true k) =
      if k = cfg.ackCode then .ok .txAck else if k = cfg.nackCode then .ok .txNack else .error .noSuchTerminator := by
  simp [decodeTx]

/-- Settles O3: the two codes are told apart because a legal configuration keeps them distinct. -/
theorem transmittedWordsDecodeBack : Obligations.TransmittedWordsDecodeBack := by
  intro cfg hl
  have hne : cfg.nackCode ≠ cfg.ackCode := hl.2.2.2.2.2.2
  refine ⟨fun after b => ⟨_, rfl, by simp [decodeTx]⟩, fun k => ⟨_, rfl, by simp [decodeTx]⟩, ⟨_, rfl, ?_⟩,
    ⟨_, rfl, ?_⟩, fun k ha hn => ?_⟩
  · rw [decodeTx_alone, if_pos rfl]
  · rw [decodeTx_alone, if_neg hne, if_pos rfl]
  · have hk : decodeTx cfg false (mkWord true k) = .error .noSuchTerminator := by
      rw [decodeTx_alone, if_neg ha, if_neg hn]
    exact hk

/-- Settles O4: each word is decoded by evaluation. -/
theorem specWordsDecodeAsTheSpecSays : Obligations.SpecWordsDecodeAsTheSpecSays :=
  ⟨rfl, rfl, rfl, rfl, rfl, rfl, rfl, rfl, rfl, rfl, rfl⟩

/-! The fields of a word on the number the transport hands over. -/

/-- Of the number only the bits below 9 count (R70). -/
theorem wordOfCarrier_mod (n : Nat) : wordOfCarrier (n % 512) = wordOfCarrier n := by
  apply BitVec.eq_of_toNat_eq
  simp [wordOfCarrier]

theorem modeFlag_wordOfCarrier (n : Nat) : modeFlag (wordOfCarrier n) = decide (n / 256 % 2 = 1) := by
  rw [modeFlag, wordOfCarrier, BitVec.getLsbD_ofNat, Nat.testBit_eq_decide_div_mod_eq]
  rfl

theorem dataByte_wordOfCarrier (n : Nat) : dataByte (wordOfCarrier n) = BitVec.ofNat 8 n := by
  apply BitVec.eq_of_toNat_eq
  simp only [dataByte, wordOfCarrier, BitVec.toNat_setWidth, BitVec.toNat_ofNat]
  omega

theorem addrField_wordOfCarrier (cfg : Config) (n : Nat) :
    addrField cfg (wordOfCarrier n) = n % 256 / 2 ^ cfg.cmdW := by
  rw [addrField, dataByte_wordOfCarrier, BitVec.toNat_ofNat]

theorem cmdField_wordOfCarrier (cfg : Config) (n : Nat) :
    cmdField cfg (wordOfCarrier n) = n % 256 % 2 ^ cfg.cmdW := by
  rw [cmdField, dataByte_wordOfCarrier, BitVec.toNat_ofNat]

/-- A number with the mode flag clear is the word of its data byte. -/
theorem wordOfCarrier_of_clear {n : Nat} (hm : n / 256 % 2 = 0) :
    wordOfCarrier n = mkWord false (BitVec.ofNat 8 n) := by
  rw [← mkWord_modeFlag_dataByte (wordOfCarrier n), modeFlag_wordOfCarrier, dataByte_wordOfCarrier]
  simp [hm]

end Sys2Proof
end

section
/-! The class of a received word, on the number the transport hands over (30_encoding.md R72, 42_framer.md R110). -/

namespace Sys2Proof

section
variable (cfg : Config) (st : FsmState) {n : Nat}

theorem decode_carrier_addressed (hm : n / 256 % 2 = 1) (ha : n % 256 / 2 ^ cfg.cmdW = cfg.devAddr) :
    decode cfg st (wordOfCarrier n) = .addrCmd (n % 256 % 2 ^ cfg.cmdW) := by
  rw [← addrField_wordOfCarrier] at ha
  rw [← cmdField_wordOfCarrier]
  simp [decode, modeFlag_wordOfCarrier, hm, ha]

theorem decode_carrier_other (hm : n / 256 % 2 = 1) (ha : n % 256 / 2 ^ cfg.cmdW ≠ cfg.devAddr) :
    decode cfg st (wordOfCarrier n) =
      .addrOther (n % 256 / 2 ^ cfg.cmdW) (n % 256 % 2 ^ cfg.cmdW) := by
  rw [← addrField_wordOfCarrier] at ha ⊢
  rw [← cmdField_wordOfCarrier]
  simp [decode, modeFlag_wordOfCarrier, hm, ha]

theorem decode_carrier_data (hm : n / 256 % 2 = 0) :
    decode cfg .receivingData (wordOfCarrier n) = .data (BitVec.ofNat 8 n) := by
  rw [wordOfCarrier_of_clear hm, decode_data]

theorem decode_carrier_chk (hm : n / 256 % 2 = 0) :
    decode cfg .expectingChecksum (wordOfCarrier n) = .chk (BitVec.ofNat 8 n) := by
  rw [wordOfCarrier_of_clear hm, decode_chk]

theorem decode_carrier_dataIgn (hm : n / 256 % 2 = 0) (hst : st = .idle ∨ st = .waitingAck) :
    decode cfg st (wordOfCarrier n) = .dataIgn (BitVec.ofNat 8 n) := by
  rw [wordOfCarrier_of_clear hm, decode_dataIgn cfg _ hst]

/-- The five classes, in the order in which they are tested: the mode flag and the address, then the state. -/
theorem decode_carrier_cases (n : Nat) :
    ((n / 256 % 2 = 1 ∧ n % 256 / 2 ^ cfg.cmdW = cfg.devAddr) ∧
        decode cfg st (wordOfCarrier n) = .addrCmd (n % 256 % 2 ^ cfg.cmdW)) ∨
      (∃ addr low, decode cfg st (wordOfCarrier n) = .addrOther addr low) ∨
      (st = .receivingData ∧ ∃ b, decode cfg st (wordOfCarrier n) = .data b) ∨
      (st = .expectingChecksum ∧ ∃ k, decode cfg st (wordOfCarrier n) = .chk k) ∨
      ∃ b, decode cfg st (wordOfCarrier n) = .dataIgn b := by
  rcases Nat.mod_two_eq_zero_or_one (n / 256) with hm | hm
  · refine .inr (.inr ?_)
    cases st with
    | receivingData => exact .inl ⟨rfl, _, decode_carrier_data cfg hm⟩
    | expectingChecksum => exact .inr (.inl ⟨rfl, _, decode_carrier_chk cfg hm⟩)
    | idle => exact .inr (.inr ⟨_, decode_carrier_dataIgn cfg _ hm (.inl rfl)⟩)
    | waitingAck => exact .inr (.inr ⟨_, decode_carrier_dataIgn cfg _ hm (.inr rfl)⟩)
  · by_cases ha : n % 256 / 2 ^ cfg.cmdW = cfg.devAddr
    · exact .inl ⟨⟨hm, ha⟩, decode_carrier_addressed cfg st hm ha⟩
    · exact .inr (.inl ⟨_, _, decode_carrier_other cfg st hm ha⟩)

end

end Sys2Proof
end

section
/-! What a step can do, said once (00_scope.md R6, 42_framer.md R110). -/

namespace Sys2Proof.Machine

open Sys2Proof

variable {s t : State}

/-- The state with its next event taken. -/
def State.taken (s : State) : State := { s with inputs := s.inputs.tail }

section
variable (s : State)

@[simp] theorem State.taken_cfg : s.taken.cfg = s.cfg := rfl
@[simp] theorem State.taken_reg : s.taken.reg = s.reg := rfl
@[simp] theorem State.taken_ctx : s.taken.ctx = s.ctx := rfl
@[simp] theorem State.taken_handlers : s.taken.handlers = s.handlers := rfl
@[simp] theorem State.taken_inputs : s.taken.inputs = s.inputs.tail := rfl
@[simp] theorem State.taken_trace : s.taken.trace = s.trace := rfl
@[simp] theorem State.taken_result : s.taken.result = s.result := rfl

end

theorem State.taken_of_cons {ev : InputEvent} {rest : List InputEvent} (hin : s.inputs = ev :: rest) :
    s.taken = { s with inputs := rest } := by
  rw [State.taken, hin, List.tail_cons]

theorem step_of_nil (hin : s.inputs = []) : step s = .next s := by
  unfold step; rw [hin]

theorem step_of_cons {ev : InputEvent} {rest : List InputEvent} (hin : s.inputs = ev :: rest) :
    step s = exec (instrOfInput s.cfg s.ctx.state ev) { s with inputs := rest } := by
  unfold step; rw [hin]

theorem step_of_event {ev : InputEvent} (hin : s.inputs.head? = some ev) :
    step s = exec (instrOfInput s.cfg s.ctx.state ev) s.taken := by
  obtain ⟨rest, hrest⟩ := List.head?_eq_some_iff.mp hin
  rw [step_of_cons hrest, State.taken_of_cons hrest]

/-- Settles O8: an empty event list is the step's own first case. -/
theorem nothingHappensWithoutAnEvent : Obligations.NothingHappensWithoutAnEvent := fun _ => step_of_nil

/-- Settles O6: `instrOfInput` names the operation of each event. -/
theorem stepRunsTheOperationOfTheFirstEvent : Obligations.StepRunsTheOperationOfTheFirstEvent := by
  intro s ev rest hin
  have hstep := step_of_cons hin
  refine ⟨hstep, ?_, ?_, ?_, ?_⟩
  · rintro rfl; exact hstep
  · rintro rfl; exact hstep
  · rintro c b len h rfl; exact hstep
  · rintro c len h rfl; exact hstep

/-- Settles O5: the event's operation depends on the carrier through its nine bits alone. -/
theorem bitsAboveEightAreIgnored : Obligations.BitsAboveEightAreIgnored := by
  intro s n rest
  rw [step_of_cons rfl, step_of_cons rfl, instrOfInput, instrOfInput, wordOfCarrier_mod]

/-- Settles O7: the step runs the decoded operation, and each clause names the class it is of. -/
theorem receivedWordRunsExactlyItsClassRule : Obligations.ReceivedWordRunsExactlyItsClassRule := by
  intro s n rest hin
  rw [step_of_cons hin, instrOfInput]
  refine ⟨fun hm ha => ?_, fun hm ha => ?_, fun hm hst => ?_, fun hm hst => ?_, fun hm hst => ?_⟩
  · rw [decode_carrier_addressed _ _ hm ha]
  · rw [decode_carrier_other _ _ hm ha]
  · rw [hst, decode_carrier_data _ hm]
  · rw [hst, decode_carrier_chk _ hm]
  · rw [decode_carrier_dataIgn _ _ hm hst]

/-- What a step with a result does: it takes no event or one that is ignored (R113, R119, R123), resets (R150, R151),
registers (R100, R101), or runs the rule of a word that counts in the state the framer is in (R112, R114, R118). -/
inductive StepKind (s t : State) : Prop
  | nothing (ht : t = s.taken)
  | hwReset (hin : s.inputs.head? = some .hwReset) (ht : t = contextReset (s.taken.withReg []))
  | ctxReset (hin : s.inputs.head? = some .ctxReset) (ht : t = contextReset s.taken)
  | register (r : Registry) (hr : RegInv s.cfg s.reg → RegInv s.cfg r) (ht : t = s.taken.withReg r)
  | addrCmd (n : Nat) (hin : s.inputs.head? = some (.rxWord n))
      (haddr : n / 256 % 2 = 1 ∧ n % 256 / 2 ^ s.cfg.cmdW = s.cfg.devAddr)
      (hx : execAddrCmd (n % 256 % 2 ^ s.cfg.cmdW) s.taken = .next t)
  | data (b : Byte) (hst : s.ctx.state = .receivingData) (hx : execData b s.taken = .next t)
  | chk (k : Byte) (hst : s.ctx.state = .expectingChecksum) (hx : execChk k s.taken = .next t)

theorem step_kind (hn : step s = .next t) : StepKind s t := by
  cases hin : s.inputs.head? with
  | none =>
    have hnil := List.head?_eq_none_iff.mp hin
    rw [step_of_nil hnil] at hn
    cases hn
    exact .nothing (by rw [State.taken, hnil, List.tail_nil, ← hnil])
  | some ev =>
    rw [step_of_event hin] at hn
    cases ev with
    | hwReset => cases hn; exact .hwReset hin rfl
    | ctxReset => cases hn; exact .ctxReset hin rfl
    | register c sub len h =>
      cases sub with
      | none =>
        obtain ⟨hf, -, rfl⟩ := execRegisterNosub_next hn
        exact .register _ (fun hr => hr.setBound hf fun b hb => absurd hb (Option.not_mem_none b)) rfl
      | some b =>
        obtain ⟨hf, -, rfl⟩ := execRegisterSub_next hn
        exact .register _ (fun hr => hr.writeSubcommand hf) rfl
    | rxWord n =>
      rw [instrOfInput] at hn
      rcases decode_carrier_cases s.cfg s.ctx.state n with
        ⟨haddr, hd⟩ | ⟨addr, low, hd⟩ | ⟨hst, b, hd⟩ | ⟨hst, k, hd⟩ | ⟨b, hd⟩ <;> rw [hd] at hn
      · exact .addrCmd n hin haddr hn
      · cases hn; exact .nothing rfl
      · exact .data b hst hn
      · exact .chk k hst hn
      · cases hn; exact .nothing rfl

end Sys2Proof.Machine
end

section
/-! The invariant of the machine (10_state.md R35): it holds at reset and every step keeps it. -/

namespace Sys2Proof.Machine

open Sys2Proof

variable {s t : State}

/-- Where only the context and the trace changed, the new context decides. -/
theorem Inv.of_sameOutsideContext (hi : Inv s) (hs : SameOutsideContext s t) (hc : CtxInv s.cfg t.ctx) : Inv t := by
  obtain ⟨hcfg, hreg, -⟩ := hs
  obtain ⟨hlegal, hr, -⟩ := hi
  rw [Inv, hcfg, hreg]
  exact ⟨hlegal, hr, hc⟩

/-- Settles O51: each kind of step keeps the registry's and the context's part. -/
theorem invariantIsKeptByEveryStep : Obligations.InvariantIsKeptByEveryStep := by
  intro s t hi hn
  have hitaken : Inv s.taken := hi
  obtain ⟨hlegal, hreg, hctx⟩ := hi
  cases step_kind hn with
  | nothing ht => rw [ht]; exact hitaken
  | hwReset hin ht => rw [ht]; exact ⟨hlegal, RegInv.nil _, CtxInv.init _⟩
  | ctxReset hin ht => rw [ht]; exact ⟨hlegal, hreg, CtxInv.init _⟩
  | register r hr ht => rw [ht]; exact ⟨hlegal, hr hreg, hctx⟩
  | addrCmd n hin haddr hx =>
    exact hitaken.of_sameOutsideContext (execAddrCmd_same hx) (execAddrCmd_ctxInv (s := s.taken) hreg hx)
  | data b hst hx =>
    exact hitaken.of_sameOutsideContext (execData_same hx) (execData_ctxInv (s := s.taken) hreg hctx hst hx)
  | chk k hst hx =>
    exact hitaken.of_sameOutsideContext (execChk_same hx) (execChk_ctxInv (s := s.taken) hctx hst hx)

/-- Settles O50: the registry is empty and the context initial. -/
theorem invariantHoldsAtReset : Obligations.InvariantHoldsAtReset :=
  ⟨by decide, RegInv.nil _, CtxInv.init _⟩

end Sys2Proof.Machine
end

section
/-! What `Lookup` answers (41_registry.md R104). -/

namespace Sys2Proof.Machine

open Sys2Proof

variable {cfg : Config} {r : Registry} {c : Nat} {sub : Option Byte}

theorem Registry.lookup_of_valid (hsub : ∀ b ∈ sub, b.toNat < cfg.nSub) (hv : (r.slot c sub).valid = true) :
    r.lookup cfg c sub = some (r.slot c sub) :=
  (r.lookup_eq_some_iff cfg c sub _).mpr ⟨hsub, hv, rfl⟩

theorem Registry.lookup_of_not_found (h : (∃ b ∈ sub, cfg.nSub ≤ b.toNat) ∨ (r.slot c sub).valid = false) :
    r.lookup cfg c sub = none := by
  refine Option.eq_none_iff_forall_ne_some.mpr fun d hd => ?_
  obtain ⟨hsub, hv, -⟩ := (r.lookup_eq_some_iff cfg c sub d).mp hd
  rcases h with ⟨b, hb, hge⟩ | hinv
  · exact absurd (hsub b hb) (Nat.not_lt.mpr hge)
  · rw [hinv] at hv; cases hv

theorem Registry.lookup_command (hv : (r.slot c none).valid = true) :
    r.lookup cfg c none = some (r.slot c none) :=
  Registry.lookup_of_valid (fun b hb => absurd hb (Option.not_mem_none b)) hv

/-- Settles O42: the two clauses are the two answers of `Lookup`. -/
theorem lookupAnswersTheSlot : Obligations.LookupAnswersTheSlot := by
  intro c sub s
  have hexec : exec (.lookup c sub) s = .next { s with result := .found (s.reg.lookup s.cfg c sub) } := rfl
  refine ⟨fun hv hsub => ?_, fun h => ?_⟩
  · rw [hexec, Registry.lookup_of_valid hsub hv]
  · rw [hexec, Registry.lookup_of_not_found h.symm]

end Sys2Proof.Machine
end

section
/-! `ADDR.CMD` (42_framer.md R112): when it finds a command and when it does not. -/

namespace Sys2Proof.Machine

open Sys2Proof

variable {s : State} {c : Nat}

theorem execAddrCmd_of_valid (hv : (s.reg.slot c none).valid = true) :
    execAddrCmd c s = .next (complete (latchCommand c (s.reg.slot c none) (contextReset s))) := by
  unfold execAddrCmd; rw [Registry.lookup_command hv]

theorem execAddrCmd_of_invalid (hv : (s.reg.slot c none).valid = false) :
    execAddrCmd c s = .next (raise (.unrecognizedCommand c none) (contextReset s)) := by
  unfold execAddrCmd; rw [Registry.lookup_of_not_found (.inr hv)]

/-- A command just latched is complete when it is plain and of length 0 (R116, D10). -/
theorem completes_latchCommand {d : Definition} (hv : d.valid = true) :
    (latchCommand c d (contextReset s)).ctx.completes = true ↔ d.hasSub = false ∧ d.expLen = 0 := by
  rw [Context.completes_iff]
  have hzero : 0 = d.expLen.toNat ↔ d.expLen = 0 := by rw [eq_comm, BitVec.toNat_eq]; rfl
  simp [hv, Context.init, hzero]

/-- Settles O9: the command is looked up in a context already reset, and the completion test sees an index of 0. -/
theorem registeredCommandStartsAFreshFrame : Obligations.RegisteredCommandStartsAFreshFrame := by
  intro c s hv
  refine ⟨_, execAddrCmd_of_valid hv, by simp [SameOutsideContext], by simp, ?_⟩
  simp only [complete_ctx, completes_latchCommand hv]
  rfl

/-- Settles O10: the lookup fails, and the error is raised from the reset context. -/
theorem unregisteredCommandIsLoggedAndDiscarded : Obligations.UnregisteredCommandIsLoggedAndDiscarded :=
  fun _ s hv => ⟨_, execAddrCmd_of_invalid hv, raise_errorStep_nil _ (contextReset s)⟩

/-- Settles O18: `ADDR.CMD` resets the context before anything else. -/
theorem addressedCommandForgetsThePast : Obligations.AddressedCommandForgetsThePast := by
  intro c s s' t t' hcfg hreg hn hn'
  have hslot : s'.reg.slot c none = s.reg.slot c none := by rw [hreg]
  cases hv : (s.reg.slot c none).valid with
  | false =>
    cases (execAddrCmd_of_invalid hv).symm.trans hn
    cases (execAddrCmd_of_invalid (hslot ▸ hv)).symm.trans hn'
    rfl
  | true =>
    cases (execAddrCmd_of_valid hv).symm.trans hn
    cases (execAddrCmd_of_valid (hslot ▸ hv)).symm.trans hn'
    rw [complete_ctx, complete_ctx, hslot]
    rfl

end Sys2Proof.Machine
end

section
/-! `DATA` (42_framer.md R114 to R116): the full buffer, the selector, and every other payload byte. -/

namespace Sys2Proof.Machine

open Sys2Proof

variable {s t : State} {b : Byte}

theorem atSelector_storePayload (b : Byte) (s : State) :
    (storePayload b s).ctx.atSelector = true ↔ s.ctx.rxIdx = 1 ∧ s.ctx.defn.hasSub = true := by
  simp [Context.atSelector]

/-- The completion test after a store (R116). -/
theorem completes_storePayload (b : Byte) (s : State) :
    (storePayload b s).ctx.completes = true ↔
      s.ctx.defn.valid = true ∧ s.ctx.defn.hasSub = false ∧ s.ctx.rxIdx + 1 = s.ctx.defn.expLen.toNat :=
  Context.completes_iff _

theorem toNat_checksumAdd (acc b : Byte) : (checksumAdd acc b).toNat = (acc.toNat + b.toNat) % 256 :=
  BitVec.toNat_ofNat ..

theorem execData_of_full (hfull : s.ctx.rxIdx = s.cfg.rxCap) :
    execData b s = .next (raise (.frameTooLong s.ctx.curCmd s.ctx.curSub s.cfg.rxCap) s) := by
  unfold execData; rw [if_pos hfull, hfull]

theorem execData_of_selector (hlt : s.ctx.rxIdx < s.cfg.rxCap)
    (hsel : s.ctx.rxIdx = 1 ∧ s.ctx.defn.hasSub = true) :
    execData b s = resolveSubcommand b (storePayload b s) := by
  unfold execData
  rw [if_neg hlt.ne, if_neg hlt.not_gt, if_pos ((atSelector_storePayload b s).mpr hsel)]

theorem execData_of_plain (hlt : s.ctx.rxIdx < s.cfg.rxCap)
    (hsel : ¬(s.ctx.rxIdx = 1 ∧ s.ctx.defn.hasSub = true)) :
    execData b s = .next (complete (storePayload b s)) := by
  unfold execData
  rw [if_neg hlt.ne, if_neg hlt.not_gt, if_neg (mt (atSelector_storePayload b s).mp hsel)]

theorem resolveSubcommand_of_found {c : Nat} (hc : s.ctx.curCmd = some c) (hb : b.toNat < s.cfg.nSub)
    (hv : (s.reg.slot c (some b)).valid = true) :
    resolveSubcommand b s = .next (complete (latchSubcommand b (s.reg.slot c (some b)) s)) := by
  have hl : s.reg.lookup s.cfg c (some b) = some (s.reg.slot c (some b)) :=
    Registry.lookup_of_valid (by rintro _ ⟨⟩; exact hb) hv
  unfold resolveSubcommand
  simp only [hc, hl]

theorem resolveSubcommand_of_not_found {c : Nat} (hc : s.ctx.curCmd = some c)
    (h : s.cfg.nSub ≤ b.toNat ∨ (s.reg.slot c (some b)).valid = false) :
    resolveSubcommand b s = .next (raise (.unrecognizedCommand c (some b)) s) := by
  have hl : s.reg.lookup s.cfg c (some b) = none :=
    Registry.lookup_of_not_found (h.imp_left fun hge => ⟨b, rfl, hge⟩)
  unfold resolveSubcommand
  simp only [hc, hl]

/-- Settles O12: below the capacity and off the selector `DATA` is the store, then the completion test. -/
theorem payloadByteIsStoredAndSummed : Obligations.PayloadByteIsStoredAndSummed := by
  intro b s hwf hlt hsel
  refine ⟨_, execData_of_plain hlt hsel, by simp [SameOutsideContext], by simp, ?_⟩
  simp only [complete_ctx, completes_storePayload]
  exact ⟨Memory.read_write_self hwf _ _, fun a ha => Memory.read_write_ne _ b ha, fun a => rfl,
    Memory.write_wf hwf _ _, rfl, toNat_checksumAdd _ _, rfl, rfl, rfl, rfl⟩

/-- Settles O13: the latched definition is the subcommand's, and the completion test reads it. -/
theorem secondByteSelectsTheSubcommand : Obligations.SecondByteSelectsTheSubcommand := by
  intro b c s hwf hone hcap hsub hc hb hv
  have hexec : execData b s =
      .next (complete (latchSubcommand b (s.reg.slot c (some b)) (storePayload b s))) := by
    rw [execData_of_selector (hone ▸ hcap) ⟨hone, hsub⟩]
    exact resolveSubcommand_of_found (s := storePayload b s) hc hb hv
  refine ⟨_, hexec, by simp [SameOutsideContext], by simp, ?_⟩
  simp only [complete_ctx, Context.completes_iff, latchSubcommand_ctx, storePayload_ctx, hone, hv, true_and,
    eq_comm (a := 2)]
  exact ⟨Memory.read_write_self hwf _ _, fun a ha => Memory.read_write_ne _ b ha, fun _ => trivial,
    toNat_checksumAdd _ _, hc, trivial⟩

/-- Settles O14: the store is undone by the error's context reset. -/
theorem unregisteredSubcommandIsLoggedAndDiscarded : Obligations.UnregisteredSubcommandIsLoggedAndDiscarded := by
  intro b c s hone hcap hsub hc h
  have hexec : execData b s = .next (raise (.unrecognizedCommand c (some b)) (storePayload b s)) := by
    rw [execData_of_selector (hone ▸ hcap) ⟨hone, hsub⟩]
    exact resolveSubcommand_of_not_found (s := storePayload b s) hc h
  exact ⟨_, hexec, raise_errorStep_nil _ (storePayload b s)⟩

/-- Settles O15: the capacity test comes before the store. -/
theorem fullBufferIsFrameTooLong : Obligations.FullBufferIsFrameTooLong :=
  fun _ s hfull => ⟨_, execData_of_full hfull, raise_errorStep_nil _ s⟩

/-- A payload byte that does not reach the resolved length leaves the frame waiting, one byte longer, or finds the
buffer full. -/
theorem execData_of_length_ne (hst : s.ctx.state = .receivingData) (hsub : s.ctx.defn.hasSub = false)
    (hne : s.ctx.rxIdx < s.cfg.rxCap → s.ctx.rxIdx + 1 ≠ s.ctx.defn.expLen.toNat) (hn : execData b s = .next t) :
    (t.ctx.state = .receivingData ∧ t.ctx.defn = s.ctx.defn ∧ t.ctx.rxIdx = s.ctx.rxIdx + 1 ∧
        s.ctx.rxIdx < s.cfg.rxCap) ∨
      (s.ctx.rxIdx = s.cfg.rxCap ∧ ErrorStep s t [] (.frameTooLong s.ctx.curCmd s.ctx.curSub s.cfg.rxCap)) := by
  rcases execData_next hn with ⟨hfull, rfl⟩ | ⟨-, hsel, -⟩ | ⟨hlt, -, rfl⟩
  · exact .inr ⟨hfull, hfull ▸ raise_errorStep_nil _ s⟩
  · have hhas := ((atSelector_storePayload b s).mp hsel).2
    rw [hsub] at hhas; cases hhas
  · have hopen : ¬(storePayload b s).ctx.completes = true := fun h => hne hlt ((completes_storePayload b s).mp h).2.2
    refine .inl ⟨?_, by simp, by simp, hlt⟩
    rw [complete_ctx, if_neg hopen]
    exact hst

/-- Settles O21: the index is past the length already. -/
theorem shortSubcommandEntryNeverCompletes : Obligations.ShortSubcommandEntryNeverCompletes :=
  fun _ _ _ _ hst hsub hshort hn => execData_of_length_ne hst hsub (fun _ => by omega) hn

/-- Settles O22: the buffer is full before the length is met. -/
theorem overlongEntryNeverCompletes : Obligations.OverlongEntryNeverCompletes :=
  fun _ _ _ _ hst hsub hlong hn => execData_of_length_ne hst hsub (fun _ => by omega) hn

end Sys2Proof.Machine
end

section
/-! `TRANSMIT` (44_transmitter.md R140, R144, R145): its events, its words, and the rejected response. -/

namespace Sys2Proof.Machine

open Sys2Proof

variable {cfg : Config} {tx : Memory} {n : Nat} {s : State}

theorem exec_transmit_of_le (hn : n ≤ s.cfg.txCap) : exec (.transmit n) s = .next (transmitResponse n s) :=
  if_neg (Nat.not_lt.mpr hn)

theorem exec_transmit_of_lt (hn : s.cfg.txCap < n) : exec (.transmit n) s = .fault .bufferBounds := if_pos hn

/-- `TX.NACK` (R144). -/
theorem exec_txNack (s : State) :
    exec .txNack s = .next { s with trace := s.trace ++ [.tx (1#1 ++ s.cfg.nackCode)] } := rfl

theorem terminatorByte_of_rejected (hr : rejected cfg tx = true) : terminatorByte cfg tx n = cfg.nackCode := by
  rw [terminatorByte, if_pos hr]

theorem length_responseWords (cfg : Config) (tx : Memory) (n : Nat) : (responseWords cfg tx n).length = n + 1 := by
  simp [responseWords]

/-- Of the words of a response the last alone carries the mode flag (R77, R145). -/
theorem modeFlag_getElem_responseWords {j : Nat} (hj : j < (responseWords cfg tx n).length) :
    modeFlag ((responseWords cfg tx n)[j]) = decide (j = n) := by
  have hle : j < n + 1 := length_responseWords cfg tx n ▸ hj
  rcases Nat.lt_succ_iff_lt_or_eq.mp hle with hlt | rfl
  · simp [responseWords, hlt, hlt.ne]
  · simp [responseWords]

/-- Settles O29: the response read off TX itself. -/
theorem transmitSendsTheResponse : Obligations.TransmitSendsTheResponse := by
  intro n s
  refine ⟨fun hn => ?_, exec_transmit_of_lt⟩
  rw [exec_transmit_of_le hn, transmitResponse,
    responseWords_events s.cfg s.ctx.txBuf n s.ctx.txBuf.read rfl fun _ _ => rfl]
  rfl

/-- Settles O34: the words of a response are `n` with the mode flag clear and one with it set. -/
theorem responseIsCountPlusOneWords : Obligations.ResponseIsCountPlusOneWords := by
  intro n s hn
  exact ⟨_, responseWords s.cfg s.ctx.txBuf n, exec_transmit_of_le hn, transmitResponse_trace _ _,
    length_responseWords _ _ _, rfl, ⟨rfl, rfl, rfl, rfl, rfl⟩, fun _ hj => modeFlag_getElem_responseWords hj⟩

end Sys2Proof.Machine
end

section
/-! `DISPATCH` and `CHK` (43_dispatcher.md R131 to R136, 42_framer.md R118): how each of their ends comes about. -/

namespace Sys2Proof.Machine

open Sys2Proof

variable {s t : State}

/-- An error that is no checksum mismatch transmits nothing, whatever the policy (60_exceptions.md R165, R167). -/
theorem raise_trace_of_ne {e : LogEntry} (he : e.kind ≠ .checksumMismatch) :
    (raise e s).trace = s.trace ++ [.log e] := by
  rw [raise_trace, raiseWords, if_neg fun h => he h.1, List.append_nil]

theorem dispatchFrame_of_mismatch (h : s.ctx.curCmd ≠ some s.ctx.defn.cmd ∨ s.ctx.curSub ≠ s.ctx.defn.sub) :
    dispatchFrame s = .next (raise (.dispatchInconsistency .mismatch s.ctx.curCmd s.ctx.curSub) s) := by
  unfold dispatchFrame; rw [if_pos h]

theorem dispatchFrame_of_noHandler (hcmd : s.ctx.curCmd = some s.ctx.defn.cmd) (hsub : s.ctx.curSub = s.ctx.defn.sub)
    (hh : s.ctx.defn.handler = none) :
    dispatchFrame s = .next (raise (.dispatchInconsistency .noHandler s.ctx.curCmd s.ctx.curSub) s) := by
  unfold dispatchFrame; rw [if_neg (by simp [hcmd, hsub]), hh]

/-- Settles O17: the error is raised with the payload as dump. -/
theorem wrongChecksumIsLoggedWithTheFrame : Obligations.WrongChecksumIsLoggedWithTheFrame :=
  fun _ s hne => ⟨_, execChk_of_ne hne, raise_errorStep_nil _ s⟩

/-- Settles O23: the dispatch that an accepted checksum starts raises before it calls. -/
theorem inconsistentDispatchDropsTheFrame : Obligations.InconsistentDispatchDropsTheFrame := by
  intro s
  have hchk : exec (.chk s.ctx.chk) s = dispatchFrame (s.withPhase .waitingAck) := execChk_of_eq s
  rw [hchk]
  refine ⟨fun hmis => ?_, fun hcmd hsub hh => ?_⟩
  · refine ⟨_, dispatchFrame_of_mismatch (s := s.withPhase .waitingAck) hmis, rfl, ⟨rfl, rfl, rfl, rfl, rfl⟩, ?_⟩
    exact raise_trace_of_ne (s := s.withPhase .waitingAck) (by simp [LogEntry.kind])
  · refine ⟨_, dispatchFrame_of_noHandler (s := s.withPhase .waitingAck) hcmd hsub hh, rfl,
      ⟨rfl, rfl, rfl, rfl, rfl⟩, ?_⟩
    exact raise_trace_of_ne (s := s.withPhase .waitingAck) (by simp [LogEntry.kind])

/-- The byte of the output array is the handler's, or 0x00 where the handler wrote none (R133). -/
theorem getElem_outputArray (cfg : Config) (r : HandlerResult) {i : Nat} (hi : i < (outputArray cfg r.out).length) :
    (outputArray cfg r.out)[i] = outByte r i := by
  have hcap : i < cfg.txCap := length_outputArray cfg r.out ▸ hi
  by_cases hout : i < r.out.length
  · simp [outputArray, outByte, hout]
  · simp [outputArray, outByte, List.getElem_append_right (Nat.le_of_not_lt hout), Nat.le_of_not_lt hout]

/-- The state a dispatch leaves when its handler answered `r` to the call `c` in range: the output is in TX, the call
and the response are sent (R131, R133, R140). -/
def answered (c : HandlerCall) (r : HandlerResult) (s : State) : State :=
  transmitResponse r.count (loadOutput r.out (s.emit [.call c]))

section
variable {c : HandlerCall} {r : HandlerResult}

@[simp] theorem answered_ctx (c : HandlerCall) (r : HandlerResult) (s : State) :
    (answered c r s).ctx = { s.ctx with txBuf := s.ctx.txBuf.writeBytes 0 (outputArray s.cfg r.out) } := rfl

@[simp] theorem answered_inputs (c : HandlerCall) (r : HandlerResult) (s : State) :
    (answered c r s).inputs = s.inputs := rfl

theorem answered_same (c : HandlerCall) (r : HandlerResult) (s : State) : SameOutsideContext s (answered c r s) :=
  ⟨rfl, rfl, rfl, rfl, rfl⟩

theorem answered_txBuf_read (hwf : s.ctx.txBuf.wf) {i : Nat} (hi : i < s.cfg.txCap) :
    (answered c r s).ctx.txBuf.read i = outByte r i :=
  (loadOutput_read r.out hwf hi).trans (getElem_outputArray s.cfg r _)

theorem answered_txBuf_read_ge {i : Nat} (hi : s.cfg.txCap ≤ i) :
    (answered c r s).ctx.txBuf.read i = s.ctx.txBuf.read i :=
  Memory.read_writeBytes_ge _ _ (by rw [length_outputArray, Nat.zero_add]; exact hi)

/-- The call, then the bytes TX now holds with the mode flag clear, then one word with it set. -/
theorem answered_trace_words (c : HandlerCall) (r : HandlerResult) (s : State) :
    (answered c r s).trace = s.trace ++ .call c ::
      (((answered c r s).ctx.txBuf.bytes r.count).map (fun b : Byte => .tx (0#1 ++ b)) ++
        [.tx (1#1 ++ terminatorByte s.cfg (answered c r s).ctx.txBuf r.count)]) := by
  rw [← map_tx_responseWords, answered, transmitResponse_trace, loadOutput_trace, State.emit_trace, List.append_assoc]
  rfl

/-- The call, then the response of the handler's own bytes. -/
theorem answered_trace (hl : s.cfg.Legal) (hwf : s.ctx.txBuf.wf) (hr : r.count ≤ s.cfg.txCap) :
    (answered c r s).trace = s.trace ++ .call c :: responseEvents s.cfg (outByte r) r.count := by
  obtain ⟨-, -, -, -, ⟨hpos, -⟩, -⟩ := hl
  have hwords : (responseWords s.cfg (answered c r s).ctx.txBuf r.count).map Output.tx =
      responseEvents s.cfg (outByte r) r.count :=
    responseWords_events _ _ _ _ (answered_txBuf_read hwf hpos)
      fun i hi => answered_txBuf_read hwf (Nat.lt_of_lt_of_le hi hr)
  rw [← hwords, map_tx_responseWords, answered_trace_words]

end

/-! A dispatch of a consistent context with a handler that answers. -/

section
variable {h : Nat} {r : HandlerResult} (hcmd : s.ctx.curCmd = some s.ctx.defn.cmd)
  (hsub : s.ctx.curSub = s.ctx.defn.sub) (hh : s.ctx.defn.handler = some h)
  (hreply : handlerReply s.handlers (handlerCall s h s.ctx.defn.cmd) = .returns r)
include hcmd hsub hh hreply

theorem dispatchFrame_of_fits (hr : r.count ≤ s.cfg.txCap) :
    dispatchFrame s = .next (answered (handlerCall s h s.ctx.defn.cmd) r s) := by
  rw [dispatchFrame_of_returns hcmd hsub hh hreply, finishDispatch_of_le (by exact hr), answered]

theorem dispatchFrame_of_tooLong (hr : s.cfg.txCap < r.count) :
    dispatchFrame s = .next (raise (.frameTooLong s.ctx.curCmd s.ctx.curSub r.count)
      (s.emit [.call (handlerCall s h s.ctx.defn.cmd)])) := by
  rw [dispatchFrame_of_returns hcmd hsub hh hreply, finishDispatch_of_lt (by exact hr)]
  rfl

/-- An accepted checksum dispatches in WaitingAck (42_framer.md R118). -/
theorem execChk_of_fits (hr : r.count ≤ s.cfg.txCap) :
    execChk s.ctx.chk s =
      .next (answered (handlerCall s h s.ctx.defn.cmd) r (s.withPhase .waitingAck)) := by
  rw [execChk_of_eq]
  exact dispatchFrame_of_fits (s := s.withPhase .waitingAck) hcmd hsub hh hreply hr

end

/-- Settles O16: `CHK` is the answered dispatch in WaitingAck. -/
theorem rightChecksumCallsTheHandlerAndAnswers : Obligations.RightChecksumCallsTheHandlerAndAnswers := by
  intro s h r hl hwf hcmd hsub hh hreply hr
  refine ⟨_, execChk_of_fits hcmd hsub hh hreply hr, ⟨rfl, rfl, rfl, rfl, rfl⟩, ?_, rfl, fun i hi => ?_,
    fun i hi => ?_, Memory.writeBytes_wf hwf _ _⟩
  · exact answered_trace (s := s.withPhase .waitingAck) hl hwf hr
  · exact answered_txBuf_read (s := s.withPhase .waitingAck) hwf hi
  · exact answered_txBuf_read_ge (s := s.withPhase .waitingAck) hi

/-- Settles O24: the answered dispatch itself. -/
theorem dispatchCallsTheHandlerAndAnswers : Obligations.DispatchCallsTheHandlerAndAnswers := by
  intro s h r hl hwf hcmd hsub hh hreply hr
  exact ⟨_, dispatchFrame_of_fits hcmd hsub hh hreply hr, answered_same _ _ _, answered_trace hl hwf hr, rfl,
    fun i hi => answered_txBuf_read hwf hi, fun i hi => answered_txBuf_read_ge hi⟩

/-- Settles O25: either way the count is tested after the call and before TX is loaded. -/
theorem tooLongResponseIsDropped : Obligations.TooLongResponseIsDropped := by
  intro s h r hcmd hsub hh hreply hr
  have hchk : exec (.chk s.ctx.chk) s = dispatchFrame (s.withPhase .waitingAck) := execChk_of_eq s
  rw [hchk]
  exact ⟨_, _, dispatchFrame_of_tooLong hcmd hsub hh hreply hr,
    dispatchFrame_of_tooLong (s := s.withPhase .waitingAck) hcmd hsub hh hreply hr,
    raise_errorStep _ s _, raise_errorStep _ (s.withPhase .waitingAck) _⟩

/-- Settles O26: `CHK` dispatches the same context in WaitingAck. -/
theorem hangingHandlerLeavesNoResult : Obligations.HangingHandlerLeavesNoResult := by
  intro s h hcmd hsub hh hreply
  refine ⟨dispatchFrame_of_hangs hcmd hsub hh hreply, (execChk_of_eq s).trans ?_⟩
  exact dispatchFrame_of_hangs (s := s.withPhase .waitingAck) hcmd hsub hh hreply

/-- Settles O35: the three operations are the parts the received ones are defined by. -/
theorem internalOperationsMakeUpTheReceivedOnes : Obligations.InternalOperationsMakeUpTheReceivedOnes := by
  refine ⟨execChk_of_eq, fun s h r hcmd hsub hh hreply hr => ?_, fun b v s t u hlt hsub ht hu hv => ?_⟩
  · refine ⟨s.ctx.txBuf.writeBytes 0 (outputArray s.cfg r.out), fun hwf i hi => ?_, ?_⟩
    · exact answered_txBuf_read (c := handlerCall s h s.ctx.defn.cmd) hwf hi
    · exact (dispatchFrame_of_fits hcmd hsub hh hreply hr).trans (exec_transmit_of_le (by exact hr)).symm
  · have hplain : ¬(s.ctx.rxIdx = 1 ∧ s.ctx.defn.hasSub = true) := fun h => by rw [hsub] at h; cases h.2
    cases (execData_of_plain hlt hplain).symm.trans ht
    cases hu
    cases hv
    simp

end Sys2Proof.Machine
end

section
/-! The events of an operation as a list: which hold a LOG, a CALL or a word (60_exceptions.md R163 to R165,
43_dispatcher.md R135). -/

namespace Sys2Proof.Machine

open Sys2Proof

variable {s t : State} {evs pre : List Output} {e e' : LogEntry}

/-- The events of an error step are those before the LOG, the LOG, and the words of the policy (R165). -/
theorem ErrorStep.trace_eq (h : ErrorStep s t pre e) : t.trace = s.trace ++ (pre ++ .log e :: raiseWords s.cfg e) := by
  obtain ⟨-, -, ht⟩ := h
  rw [ht, List.append_assoc, List.append_assoc]
  rfl

theorem ErrorStep.events (h : ErrorStep s t pre e) (htr : t.trace = s.trace ++ evs) :
    evs = pre ++ .log e :: raiseWords s.cfg e :=
  List.append_cancel_left (htr.symm.trans h.trace_eq)

@[simp] theorem log_mem_raiseWords (cfg : Config) (e e' : LogEntry) : .log e' ∉ raiseWords cfg e := by
  unfold raiseWords; split <;> simp

@[simp] theorem call_mem_raiseWords (cfg : Config) (e : LogEntry) (c : HandlerCall) : .call c ∉ raiseWords cfg e := by
  unfold raiseWords; split <;> simp

theorem raiseWords_of_ne {cfg : Config} (he : e.kind ≠ .checksumMismatch) : raiseWords cfg e = [] :=
  if_neg fun h => he h.1

/-- What an operation emits: words alone; one error; or, by `DISPATCH` or `CHK` with the right byte, one call first of
all, then one `FrameTooLong` or the words of a response. -/
theorem exec_emits {i : Instr} (hn : exec i s = .next t) (htr : t.trace = s.trace ++ evs) :
    (∃ ws : List Word9, evs = ws.map .tx) ∨
      (∃ e, ErrorStep s t [] e ∧ evs = .log e :: raiseWords s.cfg e) ∨
      ((i = .dispatch ∨ i = .chk s.ctx.chk) ∧ ∃ c, Calls s c ∧
        ((∃ count, s.cfg.txCap < count ∧
            ErrorStep s t [.call c] (.frameTooLong s.ctx.curCmd s.ctx.curSub count) ∧
            evs = [.call c, .log (.frameTooLong s.ctx.curCmd s.ctx.curSub count)]) ∨
          ∃ ws : List Word9, ws ≠ [] ∧ evs = .call c :: ws.map .tx)) := by
  rcases exec_events hn with ⟨ws, hws⟩ | ⟨e, he⟩ | ⟨hi, ⟨c, count, hc, hlt, he⟩ | ⟨c, ws, hc, hne, -, hws⟩⟩
  · exact .inl ⟨ws, List.append_cancel_left (htr.symm.trans hws)⟩
  · exact .inr (.inl ⟨e, he, he.events htr⟩)
  · refine .inr (.inr ⟨hi, c, hc, .inl ⟨count, hlt, he, ?_⟩⟩)
    rw [he.events htr, raiseWords_of_ne (by simp [LogEntry.kind])]
    rfl
  · exact .inr (.inr ⟨hi, c, hc, .inr ⟨ws, hne, List.append_cancel_left (htr.symm.trans hws)⟩⟩)

/-- An operation that emits a call emits that of the latched handler, first, and no error but `FrameTooLong`. -/
theorem exec_emits_call {i : Instr} {c : HandlerCall} (hn : exec i s = .next t) (htr : t.trace = s.trace ++ evs)
    (hmem : .call c ∈ evs) :
    (i = .dispatch ∨ i = .chk s.ctx.chk) ∧ Calls s c ∧
      ((∃ ws : List Word9, ws ≠ [] ∧ evs = .call c :: ws.map .tx) ∨
        ∃ count, s.cfg.txCap < count ∧
          evs = [.call c, .log (.frameTooLong s.ctx.curCmd s.ctx.curSub count)]) := by
  rcases exec_emits hn htr with ⟨ws, rfl⟩ | ⟨e, -, rfl⟩ | ⟨hi, c', hc, ⟨count, hlt, -, rfl⟩ | ⟨ws, hne, rfl⟩⟩
  · simp at hmem
  · simp at hmem
  · obtain rfl : c = c' := by simpa using hmem
    exact ⟨hi, hc, .inr ⟨count, hlt, rfl⟩⟩
  · obtain rfl : c = c' := by simpa using hmem
    exact ⟨hi, hc, .inl ⟨ws, hne, rfl⟩⟩

/-- An operation that emits a LOG is one error step with that LOG, after a call at most. -/
theorem exec_emits_log {i : Instr} (hn : exec i s = .next t) (htr : t.trace = s.trace ++ evs)
    (hmem : .log e ∈ evs) :
    (ErrorStep s t [] e ∧ evs = .log e :: raiseWords s.cfg e) ∨
      ∃ c, ErrorStep s t [.call c] e ∧ e.kind = .frameTooLong ∧ evs = [.call c, .log e] := by
  rcases exec_emits hn htr with ⟨ws, rfl⟩ | ⟨e', he, rfl⟩ | ⟨-, c, -, ⟨count, -, he, rfl⟩ | ⟨ws, -, rfl⟩⟩
  · simp at hmem
  · obtain rfl : e = e' := by simpa using hmem
    exact .inl ⟨he, rfl⟩
  · obtain rfl : e = .frameTooLong s.ctx.curCmd s.ctx.curSub count := by simpa using hmem
    exact .inr ⟨c, he, rfl, rfl⟩
  · simp at hmem

/-- Settles O27: a call is always the first event of a dispatch. -/
theorem handlerIsCalledOnceAndOnlyByAnAcceptedFrame : Obligations.HandlerIsCalledOnceAndOnlyByAnAcceptedFrame := by
  intro i s t evs c hn htr hmem
  obtain ⟨hi, ⟨hh, -⟩, hafter⟩ := exec_emits_call hn htr hmem
  exact ⟨hi, hh, hafter⟩

/-- Settles O54: of the operation's events the LOG names the error step. -/
theorem everyErrorIsLoggedOnceAndRecovered : Obligations.EveryErrorIsLoggedOnceAndRecovered := by
  intro i s t evs e hn htr hmem
  rcases exec_emits_log hn htr hmem with ⟨he, -⟩ | ⟨c, he, hkind, -⟩
  · exact ⟨[], he, .inl rfl⟩
  · exact ⟨[.call c], he, .inr ⟨c, rfl, hkind⟩⟩

/-- The bytes of a buffer past its last listed one are 0x00. -/
theorem Memory.bytes_eq_append_replicate {m : Memory} {k n : Nat} (hm : ∀ e ∈ m, e.1 < k) (hkn : k ≤ n) :
    m.bytes n = m.bytes k ++ List.replicate (n - k) 0x00 := by
  induction n, hkn using Nat.le_induction with
  | base => simp
  | succ n hkn ih =>
    rw [Memory.bytes_succ, ih, Memory.read_of_forall_lt hm hkn, Nat.succ_sub hkn, List.replicate_succ',
      List.append_assoc]

/-- Settles O28: what lies past the payload in RX is 0x00 (R29), and the length is met in ExpectingChecksum. -/
theorem handlerSeesThePayloadThenZeros : Obligations.HandlerSeesThePayloadThenZeros := by
  intro k s t evs c hi hst hn htr hmem
  obtain ⟨-, -, hr, -, ⟨-, -, hrx, -⟩, -, -, -, hphase, -⟩ := hi
  obtain ⟨-, hlen⟩ := hphase hst
  obtain ⟨-, ⟨-, hcmd, hsub, hbytes, hcount⟩, -⟩ := exec_emits_call hn htr hmem
  refine ⟨hcmd, hsub, hcount, hcount.trans hlen, ?_⟩
  rw [hbytes, Memory.bytes_eq_append_replicate hrx hr]
  rfl

/-- Settles O33: no error but a mismatch puts a word after its LOG. -/
theorem nackWordIsSentExactlyWhereTheSpecSays : Obligations.NackWordIsSentExactlyWhereTheSpecSays := by
  refine ⟨exec_txNack, fun n s hn hr => ?_, fun k s hne => ?_, fun i s t evs e w hn htr hmem hkind => ?_⟩
  · rw [exec_transmit hn, terminatorByte_of_rejected hr, Memory.bytes, List.map_map]
    rfl
  · refine ⟨_, .checksumMismatch s.ctx.curCmd s.ctx.curSub s.ctx.payload k s.ctx.chk, execChk_of_ne hne, rfl, ?_⟩
    simp [raiseWords, LogEntry.kind, mkWord]
  · rcases exec_emits_log hn htr hmem with ⟨-, rfl⟩ | ⟨c, -, -, rfl⟩
    · simp [raiseWords_of_ne hkind]
    · simp

/-- A response whose first byte is the negative sentinel ends in the NACK word and holds words alone (R140). -/
theorem responseEvents_of_rejected {cfg : Config} {byte : Nat → Byte} (n : Nat) (hneg : byte 0 = cfg.negSentinel) :
    responseEvents cfg byte n =
      (List.range n).map (fun i => .tx (0#1 ++ byte i)) ++ [.tx (1#1 ++ cfg.nackCode)] := by
  rw [responseEvents, if_pos hneg]

/-- Settles O55: of the five kinds of step only the answered dispatch emits anything, a call and words. -/
theorem whatIsNotAnErrorIsNotLogged : Obligations.WhatIsNotAnErrorIsNotLogged := by
  refine ⟨fun _ _ _ => rfl, fun _ _ => rfl, fun c s hv => ?_, ?_, fun s => ⟨_, rfl, rfl⟩⟩
  · exact ⟨_, execAddrCmd_of_valid hv, by simp⟩
  · intro s t r h hl hwf hh hcmd hsub hreply hr hneg hn
    cases (execChk_of_fits hcmd hsub hh hreply hr).symm.trans hn
    have htr := answered_trace (s := s.withPhase .waitingAck) (c := handlerCall s h s.ctx.defn.cmd) hl hwf hr
    rw [responseEvents_of_rejected _ (by exact hneg)] at htr
    refine ⟨rfl, fun e => ?_, ?_⟩
    · rw [htr]; simp
    · rw [htr, ← List.cons_append, ← List.append_assoc, List.getLast?_concat]
      rfl

/-- Settles O11: neither operation looks at its operands. -/
theorem ignoredWordsChangeNothing : Obligations.IgnoredWordsChangeNothing := fun _ _ _ _ => ⟨rfl, rfl⟩

end Sys2Proof.Machine
end

section
/-! Steps: what leaves WaitingAck and what enters it, what every step keeps, and when a step has a result. -/

namespace Sys2Proof.Machine

open Sys2Proof

variable {s t : State}

/-- Settles O19: of the kinds of step the others keep the context or do not begin in WaitingAck. -/
theorem waitingAckIsLeftOnlyByCommandOrReset : Obligations.WaitingAckIsLeftOnlyByCommandOrReset := by
  intro s t hst hn hne
  have hcons {ev : InputEvent} (hin : s.inputs.head? = some ev) : ∃ rest, s.inputs = ev :: rest :=
    List.head?_eq_some_iff.mp hin
  cases step_kind hn with
  | nothing ht => rw [ht] at hne; exact absurd rfl hne
  | register r hr ht => rw [ht] at hne; exact absurd rfl hne
  | hwReset hin => obtain ⟨rest, hrest⟩ := hcons hin; exact ⟨_, rest, hrest, .inl rfl⟩
  | ctxReset hin => obtain ⟨rest, hrest⟩ := hcons hin; exact ⟨_, rest, hrest, .inr (.inl rfl)⟩
  | addrCmd n hin haddr => obtain ⟨rest, hrest⟩ := hcons hin; exact ⟨_, rest, hrest, .inr (.inr ⟨n, rfl, haddr⟩)⟩
  | data b hrd => rw [hst] at hrd; cases hrd
  | chk k hec => rw [hst] at hec; cases hec

theorem complete_state_ne_waitingAck (h : s.ctx.state ≠ .waitingAck) : (complete s).ctx.state ≠ .waitingAck := by
  rw [complete_ctx]
  split
  · nofun
  · exact h

theorem execAddrCmd_state_ne_waitingAck {c : Nat} (hn : execAddrCmd c s = .next t) : t.ctx.state ≠ .waitingAck := by
  rcases execAddrCmd_next hn with ⟨-, rfl⟩ | ⟨d, -, rfl⟩
  · nofun
  · exact complete_state_ne_waitingAck nofun

theorem execData_state_ne_waitingAck {b : Byte} (h : s.ctx.state ≠ .waitingAck) (hn : execData b s = .next t) :
    t.ctx.state ≠ .waitingAck := by
  rcases execData_next hn with ⟨-, rfl⟩ | ⟨-, -, hr⟩ | ⟨-, -, rfl⟩
  · nofun
  · obtain ⟨c, -, ⟨-, rfl⟩ | ⟨d, -, rfl⟩⟩ := resolveSubcommand_next hr
    · nofun
    · exact complete_state_ne_waitingAck h
  · exact complete_state_ne_waitingAck h

/-- A dispatch that does not reset has called the latched handler and sent a whole response (43_dispatcher.md R131). -/
theorem dispatchFrame_answered (hn : dispatchFrame s = .next t) (hst : t.ctx.state ≠ .idle) :
    ∃ h r, s.ctx.defn.handler = some h ∧ r.count ≤ s.cfg.txCap ∧
      t = answered (handlerCall s h s.ctx.defn.cmd) r s := by
  rcases dispatchFrame_next hn with ⟨-, rfl⟩ | ⟨-, -, rfl⟩ | ⟨-, h, r, hh, -, rfl⟩
  · exact absurd rfl hst
  · exact absurd rfl hst
  · rcases Nat.lt_or_ge s.cfg.txCap r.count with hr | hr
    · rw [finishDispatch_of_lt (by exact hr)] at hst
      exact absurd rfl hst
    · exact ⟨h, r, hh, hr, finishDispatch_of_le (by exact hr)⟩

/-- Settles O20: the one kind of step that enters WaitingAck is `CHK` with the right byte. -/
theorem waitingAckIsEnteredWithAResponse : Obligations.WaitingAckIsEnteredWithAResponse := by
  intro s t hi hn hold hnew
  cases step_kind hn with
  | nothing ht => rw [ht] at hnew; exact absurd hnew hold
  | register r hr ht => rw [ht] at hnew; exact absurd hnew hold
  | hwReset hin ht => rw [ht] at hnew; cases hnew
  | ctxReset hin ht => rw [ht] at hnew; cases hnew
  | addrCmd n hin haddr hx => exact absurd hnew (execAddrCmd_state_ne_waitingAck hx)
  | data b hst hx => exact absurd hnew (execData_state_ne_waitingAck (s := s.taken) hold hx)
  | chk k hst hx =>
    rcases execChk_next hx with ⟨-, hd⟩ | ⟨-, rfl⟩
    · obtain ⟨h, r, hh, hr, rfl⟩ := dispatchFrame_answered hd (by rw [hnew]; decide)
      refine ⟨handlerCall s h s.ctx.defn.cmd, _, _, hh, ?_, answered_trace_words _ r (s.taken.withPhase .waitingAck)⟩
      rw [Memory.length_bytes]
      exact hr
    · cases hnew

/-- Every operation only appends to the trace. -/
theorem exec_trace_append {i : Instr} (hn : exec i s = .next t) : ∃ evs, t.trace = s.trace ++ evs := by
  rcases exec_events hn with ⟨ws, h⟩ | ⟨e, h⟩ | ⟨-, ⟨c, count, -, -, h⟩ | ⟨c, ws, -, -, -, h⟩⟩
  · exact ⟨_, h⟩
  · exact ⟨_, h.trace_eq⟩
  · exact ⟨_, h.trace_eq⟩
  · exact ⟨_, h⟩

/-- What O53 says of the fields, where an operation ran that changed nothing but the context and the trace. -/
theorem frame_of_sameOutsideContext (hs : SameOutsideContext s.taken t) (htr : ∃ evs, t.trace = s.trace ++ evs) :
    t.cfg = s.cfg ∧ t.handlers = s.handlers ∧ t.result = s.result ∧ t.inputs = s.inputs.tail ∧
      ∃ evs, t.trace = s.trace ++ evs := by
  obtain ⟨hcfg, -, hhandlers, hinputs, hresult⟩ := hs
  exact ⟨hcfg, hhandlers, hresult, hinputs, htr⟩

/-- Settles O53: the steps that run a word's rule change the context and the trace alone, the others leave the trace
too. -/
theorem stepTakesOneEventAndAppendsOutputs : Obligations.StepTakesOneEventAndAppendsOutputs := by
  intro s t hn
  have hnil : ∃ evs, s.trace = s.trace ++ evs := ⟨[], (List.append_nil _).symm⟩
  cases step_kind hn with
  | nothing ht => rw [ht]; exact ⟨rfl, rfl, rfl, rfl, hnil⟩
  | hwReset hin ht => rw [ht]; exact ⟨rfl, rfl, rfl, rfl, hnil⟩
  | ctxReset hin ht => rw [ht]; exact ⟨rfl, rfl, rfl, rfl, hnil⟩
  | register r hr ht => rw [ht]; exact ⟨rfl, rfl, rfl, rfl, hnil⟩
  | addrCmd n hin haddr hx =>
    exact frame_of_sameOutsideContext (execAddrCmd_same hx) (exec_trace_append (s := s.taken) (i := .addrCmd _) hx)
  | data b hst hx =>
    exact frame_of_sameOutsideContext (execData_same hx) (exec_trace_append (s := s.taken) (i := .data b) hx)
  | chk k hst hx =>
    exact frame_of_sameOutsideContext (execChk_same hx) (exec_trace_append (s := s.taken) (i := .chk k) hx)

/-! When an operation has a result. -/

theorem execRegisterSub_of_taken {c : Nat} {sub len : Byte} {h : Option Nat} (hf : registerFits s.cfg c h = true)
    (ht : registerTaken s = true) :
    execRegisterSub c sub len h s = .next (s.withReg (writeSubcommand s.cfg c sub len h s.reg)) :=
  registerWith_of_taken hf ht

theorem execRegisterNosub_of_taken {c : Nat} {len : Byte} {h : Option Nat} (hf : registerFits s.cfg c h = true)
    (ht : registerTaken s = true) :
    execRegisterNosub c len h s = .next (s.withReg (s.reg.setSlot c none (boundDef c none len h))) :=
  registerWith_of_taken hf ht

theorem execAddrCmd_total (c : Nat) (s : State) : ∃ t, execAddrCmd c s = .next t := by
  cases hv : (s.reg.slot c none).valid with
  | false => exact ⟨_, execAddrCmd_of_invalid hv⟩
  | true => exact ⟨_, execAddrCmd_of_valid hv⟩

/-- A payload byte stops the block neither past the capacity nor without a current command, where the index is in
bounds (10_state.md R35.1) and a command is current. -/
theorem execData_total {b : Byte} {c : Nat} (hr : s.ctx.rxIdx ≤ s.cfg.rxCap) (hc : s.ctx.curCmd = some c) :
    ∃ t, execData b s = .next t := by
  rcases Nat.lt_or_eq_of_le hr with hlt | hfull
  · by_cases hsel : s.ctx.rxIdx = 1 ∧ s.ctx.defn.hasSub = true
    · rw [execData_of_selector hlt hsel]
      by_cases hfound : b.toNat < s.cfg.nSub ∧ (s.reg.slot c (some b)).valid = true
      · exact ⟨_, resolveSubcommand_of_found (s := storePayload b s) hc hfound.1 hfound.2⟩
      · refine ⟨_, resolveSubcommand_of_not_found (s := storePayload b s) hc ?_⟩
        rcases not_and_or.mp hfound with hge | hv
        · exact .inl (Nat.le_of_not_lt hge)
        · exact .inr (eq_false_of_ne_true hv)
    · exact ⟨_, execData_of_plain hlt hsel⟩
  · exact ⟨_, execData_of_full hfull⟩

/-- With no row that hangs every call returns (45_control.md R152). -/
theorem handlerReply_returns (hh : HandlersReturn s) (c : HandlerCall) :
    ∃ r, handlerReply s.handlers c = .returns r := by
  unfold handlerReply
  split
  · next row hrow =>
    cases hreply : row.reply with
    | returns r => exact ⟨r, rfl⟩
    | hangs => exact absurd hreply (hh row (List.mem_of_find?_eq_some hrow))
  · exact ⟨_, rfl⟩

theorem dispatchFrame_total (hh : HandlersReturn s) : ∃ t, dispatchFrame s = .next t := by
  by_cases hmis : s.ctx.curCmd ≠ some s.ctx.defn.cmd ∨ s.ctx.curSub ≠ s.ctx.defn.sub
  · exact ⟨_, dispatchFrame_of_mismatch hmis⟩
  · obtain ⟨hcmd, hsub⟩ := not_or.mp hmis
    cases hhandler : s.ctx.defn.handler with
    | none => exact ⟨_, dispatchFrame_of_noHandler (not_not.mp hcmd) (not_not.mp hsub) hhandler⟩
    | some h =>
      obtain ⟨r, hr⟩ := handlerReply_returns hh (handlerCall s h s.ctx.defn.cmd)
      exact ⟨_, dispatchFrame_of_returns (not_not.mp hcmd) (not_not.mp hsub) hhandler hr⟩

theorem execChk_total (k : Byte) (hh : HandlersReturn s) : ∃ t, execChk k s = .next t := by
  by_cases hk : k = s.ctx.chk
  · rw [hk, execChk_of_eq]
    exact dispatchFrame_total (s := s.withPhase .waitingAck) hh
  · exact ⟨_, execChk_of_ne hk⟩

/-- In ReceivingData a command is current: a definition is latched, and its codes are the context's (R35.7). -/
theorem CtxInv.curCmd_of_receivingData {cfg : Config} {c : Context} (h : CtxInv cfg c)
    (hst : c.state = .receivingData) :
    c.curCmd = some c.defn.cmd := by
  obtain ⟨-, -, -, hlatch, -, hphase, -⟩ := h
  exact (hlatch (hphase hst).1).1

/-- A received word never stops the block (30_encoding.md R80). -/
theorem exec_received_total (n : Nat) (hr : s.ctx.rxIdx ≤ s.cfg.rxCap) (hh : HandlersReturn s)
    (hc : s.ctx.state = .receivingData → s.ctx.curCmd = some s.ctx.defn.cmd) :
    ∃ t, exec (decode s.cfg s.ctx.state (wordOfCarrier n)) s = .next t := by
  rcases decode_carrier_cases s.cfg s.ctx.state n with
    ⟨-, hd⟩ | ⟨addr, low, hd⟩ | ⟨hst, b, hd⟩ | ⟨-, k, hd⟩ | ⟨b, hd⟩ <;> rw [hd]
  · exact execAddrCmd_total _ s
  · exact ⟨s, rfl⟩
  · exact execData_total hr (hc hst)
  · exact execChk_total k hh
  · exact ⟨s, rfl⟩

/-- Settles O52: by the next event, each operation's own condition for a result. -/
theorem stepNeverStopsWhenTheEnvironmentKeepsItsDuties :
    Obligations.StepNeverStopsWhenTheEnvironmentKeepsItsDuties := by
  intro s hi hduty hh
  rw [SafeStep]
  cases hin : s.inputs with
  | nil => exact ⟨s, step_of_nil hin⟩
  | cons ev rest =>
    rw [step_of_cons hin]
    cases ev with
    | hwReset => exact ⟨_, rfl⟩
    | ctxReset => exact ⟨_, rfl⟩
    | register c sub len h =>
      have htaken : registerFits s.cfg c h = true ∧ registerTaken s = true := by
        rw [HostDuty, hin] at hduty
        exact hduty
      obtain ⟨hf, ht⟩ := htaken
      cases sub with
      | none => exact ⟨_, execRegisterNosub_of_taken (s := { s with inputs := rest }) hf ht⟩
      | some b => exact ⟨_, execRegisterSub_of_taken (s := { s with inputs := rest }) hf ht⟩
    | rxWord n =>
      obtain ⟨-, -, hctx⟩ := hi
      have hr : s.ctx.rxIdx ≤ s.cfg.rxCap := hctx.1
      exact exec_received_total (s := { s with inputs := rest }) n hr hh hctx.curCmd_of_receivingData

end Sys2Proof.Machine
end

section
/-! `REGISTER` (41_registry.md R100 to R106): when it is taken, and which slots it writes. -/

namespace Sys2Proof.Machine

open Sys2Proof

variable {s t : State} {c : Nat} {b len : Byte} {h : Option Nat}

theorem registerFits_iff (cfg : Config) (c : Nat) (h : Option Nat) :
    registerFits cfg c h = true ↔ c < 2 ^ cfg.cmdW ∧ ∀ id ∈ h, id < 2 ^ cfg.hidW := by
  rw [← Config.nCmd]
  cases h <;> simp [registerFits, handlerFits]

theorem registerTaken_iff (s : State) :
    registerTaken s = true ↔ s.ctx.state = .idle ∨ s.cfg.registerPolicy = .perform := by
  simp [registerTaken]

theorem exec_registerSub (c : Nat) (b len : Byte) (h : Option Nat) (s : State) :
    exec (.registerSub c b len h) s = registerWith c h (writeSubcommand s.cfg c b len h) s := rfl

theorem exec_registerNosub (c : Nat) (len : Byte) (h : Option Nat) (s : State) :
    exec (.registerNosub c len h) s = registerWith c h (fun r => r.setSlot c none (boundDef c none len h)) s := rfl

theorem registerWith_of_not_fits {w : Registry → Registry} (hf : registerFits s.cfg c h = false) :
    registerWith c h w s = .refused .operandWidth := if_pos hf

theorem registerWith_of_not_taken {w : Registry → Registry} (hf : registerFits s.cfg c h = true)
    (ht : registerTaken s = false) : registerWith c h w s = .refused .registerOutsideIdle := by
  unfold registerWith
  rw [if_neg (by simp [hf]), if_pos ht]

/-- A registration changes nothing but the registry (R106). -/
theorem withReg_same (s : State) (r : Registry) : SameOutsideRegistry s (s.withReg r) := ⟨rfl, rfl, rfl, rfl, rfl, rfl⟩

/-! The two writes of a subcommand's registration. -/

section
variable {cfg : Config} {r : Registry}

theorem writeSubcommand_of_lt (hb : b.toNat < cfg.nSub) :
    writeSubcommand cfg c b len h r =
      (r.setSlot c none (sentinelDef c)).setSlot c (some b) (boundDef c (some b) len h) := if_pos hb

theorem writeSubcommand_of_ge (hb : cfg.nSub ≤ b.toNat) : writeSubcommand cfg c b len h r = r :=
  if_neg (Nat.not_lt.mpr hb)

theorem writeSubcommand_wf (hwf : r.wf) : (writeSubcommand cfg c b len h r).wf := by
  rcases Nat.lt_or_ge b.toNat cfg.nSub with hb | hb
  · rw [writeSubcommand_of_lt hb]
    exact Registry.setSlot_wf (Registry.setSlot_wf hwf _ _ _) _ _ _
  · rw [writeSubcommand_of_ge hb]
    exact hwf

theorem slot_writeSubcommand_self (hwf : r.wf) (hb : b.toNat < cfg.nSub) :
    (writeSubcommand cfg c b len h r).slot c (some b) = boundDef c (some b) len h := by
  rw [writeSubcommand_of_lt hb]
  exact Registry.slot_setSlot_self (Registry.setSlot_wf hwf _ _ _) _ _ _

theorem slot_writeSubcommand_parent (hwf : r.wf) (hb : b.toNat < cfg.nSub) :
    (writeSubcommand cfg c b len h r).slot c none = sentinelDef c := by
  rw [writeSubcommand_of_lt hb, Registry.slot_setSlot_ne _ _ (by simp)]
  exact Registry.slot_setSlot_self hwf _ _ _

theorem slot_writeSubcommand_ne {c' : Nat} {sub' : Option Byte} (hparent : (c', sub') ≠ (c, none))
    (hself : (c', sub') ≠ (c, some b)) : (writeSubcommand cfg c b len h r).slot c' sub' = r.slot c' sub' := by
  rcases Nat.lt_or_ge b.toNat cfg.nSub with hb | hb
  · rw [writeSubcommand_of_lt hb, Registry.slot_setSlot_ne _ _ (by simpa using hself),
      Registry.slot_setSlot_ne _ _ (by simpa using hparent)]
  · rw [writeSubcommand_of_ge hb]

/-- A valid slot stays valid when a valid definition is written, to it or to another. -/
theorem Registry.valid_setSlot (hwf : r.wf) {c' : Nat} {sub sub' : Option Byte} {d : Definition} (hd : d.valid = true)
    (hv : (r.slot c' sub').valid = true) : ((r.setSlot c sub d).slot c' sub').valid = true := by
  by_cases heq : c' = c ∧ sub' = sub
  · obtain ⟨rfl, rfl⟩ := heq
    rw [Registry.slot_setSlot_self hwf]
    exact hd
  · rw [Registry.slot_setSlot_ne r d heq]
    exact hv

theorem valid_writeSubcommand (hwf : r.wf) {c' : Nat} {sub' : Option Byte} (hv : (r.slot c' sub').valid = true) :
    ((writeSubcommand cfg c b len h r).slot c' sub').valid = true := by
  rcases Nat.lt_or_ge b.toNat cfg.nSub with hb | hb
  · rw [writeSubcommand_of_lt hb]
    exact Registry.valid_setSlot (Registry.setSlot_wf hwf _ _ _) rfl (Registry.valid_setSlot hwf rfl hv)
  · rw [writeSubcommand_of_ge hb]
    exact hv

end

/-- Settles O36: the sentinel is written first, to a slot other than the subcommand's. -/
theorem subcommandRegistrationWritesTwoSlots : Obligations.SubcommandRegistrationWritesTwoSlots := by
  intro c b len h s hwf hc hh hb ht
  have hexec := execRegisterSub_of_taken (sub := b) (len := len) ((registerFits_iff s.cfg c h).mpr ⟨hc, hh⟩)
    ((registerTaken_iff s).mpr ht)
  exact ⟨_, hexec, withReg_same s _, writeSubcommand_wf hwf, slot_writeSubcommand_parent hwf hb,
    slot_writeSubcommand_self hwf hb, fun _ _ hparent hself => slot_writeSubcommand_ne hparent hself⟩

/-- Settles O37: one write, to the slot without a subcommand. -/
theorem plainRegistrationWritesOneSlot : Obligations.PlainRegistrationWritesOneSlot := by
  intro c len h s hwf hc hh ht
  have hexec := execRegisterNosub_of_taken (len := len) ((registerFits_iff s.cfg c h).mpr ⟨hc, hh⟩)
    ((registerTaken_iff s).mpr ht)
  exact ⟨_, hexec, withReg_same s _, Registry.setSlot_wf hwf _ _ _, Registry.slot_setSlot_self hwf _ _ _,
    fun _ _ hne => Registry.slot_setSlot_ne _ _ (by simpa using hne)⟩

/-- Settles O39: the registry written back is the one read. -/
theorem registrationWithoutASlotWritesNothing : Obligations.RegistrationWithoutASlotWritesNothing := by
  intro c b len h s hc hh hb ht
  rw [exec_registerSub, registerWith_of_taken ((registerFits_iff s.cfg c h).mpr ⟨hc, hh⟩)
    ((registerTaken_iff s).mpr ht), writeSubcommand_of_ge hb]
  rfl

/-- Settles O40: the width test comes first, then the state. -/
theorem registrationIsRefusedInTraffic : Obligations.RegistrationIsRefusedInTraffic := by
  intro c b len h s
  rw [exec_registerSub, exec_registerNosub]
  refine ⟨fun hc hh hst hpol => ?_, fun hwide => ?_⟩
  · have hf : registerFits s.cfg c h = true := (registerFits_iff s.cfg c h).mpr ⟨hc, hh⟩
    have ht : registerTaken s = false := by simp [registerTaken, hst, hpol]
    exact ⟨registerWith_of_not_taken hf ht, registerWith_of_not_taken hf ht⟩
  · have hf : registerFits s.cfg c h = false := by
      refine eq_false_of_ne_true fun hfits => ?_
      obtain ⟨hc, hh⟩ := (registerFits_iff s.cfg c h).mp hfits
      rcases hwide with hge | ⟨id, hid, hge⟩
      · exact absurd hc (Nat.not_lt.mpr hge)
      · exact absurd (hh id hid) (Nat.not_lt.mpr hge)
    exact ⟨registerWith_of_not_fits hf, registerWith_of_not_fits hf⟩

/-- No operation but `HW.RESET` takes a registration back (R102): the others that write the registry write valid
definitions. -/
theorem exec_keeps_valid {i : Instr} {sub : Option Byte} (hwf : s.reg.wf) (hi : i ≠ .hwReset)
    (hv : (s.reg.slot c sub).valid = true) (hn : exec i s = .next t) : (t.reg.slot c sub).valid = true := by
  cases hw : i.writesRegistry with
  | false => rw [exec_reg_of_not_writesRegistry hw hn]; exact hv
  | true =>
    rcases Instr.writesRegistry_iff.mp hw with rfl | ⟨c', b, len, h, rfl⟩ | ⟨c', len, h, rfl⟩
    · exact absurd rfl hi
    · obtain ⟨-, -, rfl⟩ := execRegisterSub_next hn
      exact valid_writeSubcommand hwf hv
    · obtain ⟨-, -, rfl⟩ := execRegisterNosub_next hn
      exact Registry.valid_setSlot hwf rfl hv

/-- Settles O38: the second registration writes every field of its slots again. -/
theorem lastRegistrationWins : Obligations.LastRegistrationWins := by
  refine ⟨fun c len len' h h' s t t' hwf hn hn' => ?_, fun c b len len' h h' s t t' hwf hb hn hn' => ?_,
    fun i c sub s t hwf hi hv hn => exec_keeps_valid hwf hi hv hn⟩
  · obtain ⟨-, -, rfl⟩ := execRegisterNosub_next hn
    obtain ⟨-, -, rfl⟩ := execRegisterNosub_next hn'
    exact ⟨Registry.slot_setSlot_self (Registry.setSlot_wf hwf _ _ _) _ _ _, rfl, rfl⟩
  · obtain ⟨-, -, rfl⟩ := execRegisterSub_next hn
    obtain ⟨-, -, rfl⟩ := execRegisterSub_next hn'
    exact ⟨slot_writeSubcommand_self (writeSubcommand_wf hwf) hb,
      slot_writeSubcommand_parent (writeSubcommand_wf hwf) hb, rfl, rfl⟩

end Sys2Proof.Machine
end

section
/-! The Checksum Engine (40_checksum.md R90, R91). -/

namespace Sys2Proof.Machine

open Sys2Proof

theorem exec_chk8 (bytes : List Byte) (s : State) :
    exec (.chk8 bytes) s = .next { s with result := .byte (checksum bytes) } := rfl

theorem exec_chkAdd (acc b : Byte) (s : State) :
    exec (.chkAdd acc b) s = .next { s with result := .byte (checksumAdd acc b) } := rfl

theorem checksum_perm {xs ys : List Byte} (h : xs.Perm ys) : checksum xs = checksum ys := by
  rw [checksum, checksum, (h.map BitVec.toNat).sum_eq]

theorem checksum_eq_foldl (bytes : List Byte) : checksum bytes = bytes.foldl checksumAdd 0x00 :=
  (foldl_checksumAdd [] bytes).symm

/-- Settles O43: the sum of naturals modulo 256 does not see the order. -/
theorem checksumIsTheSumModulo256 : Obligations.ChecksumIsTheSumModulo256 := by
  refine ⟨fun bytes s => ⟨checksum bytes, exec_chk8 bytes s, toNat_checksum bytes⟩, exec_chk8 [],
    fun xs ys s hperm => ?_⟩
  rw [exec_chk8, exec_chk8, checksum_perm hperm]

/-- Settles O44: the witness is the model's `chk_add`, whose fold is the checksum. -/
theorem accumulatingGivesTheChecksum : Obligations.AccumulatingGivesTheChecksum := by
  refine ⟨⟨checksumAdd, fun acc b s => ⟨exec_chkAdd acc b s, toNat_checksumAdd acc b⟩, fun bytes s => ?_⟩, ?_⟩
  · rw [exec_chk8, checksum_eq_foldl]
  · intro bytes b acc v s t u ht hacc hu _
    cases ht
    cases hacc
    rw [exec_chk8, checksum_snoc, ← hu, exec_chkAdd]

end Sys2Proof.Machine
end

section
/-! The resets and the strobes (45_control.md R150 to R155, 70_reset_and_hazards.md R191). -/

namespace Sys2Proof.Machine

open Sys2Proof

theorem exec_ctxReset (s : State) : exec .ctxReset s = .next { s with ctx := Context.init } := rfl

theorem exec_hwReset (s : State) : exec .hwReset s = .next { s with reg := [], ctx := Context.init } := rfl

/-- Settles O46: both resets put the initial context in place. -/
theorem resetValuesOfEveryField : Obligations.ResetValuesOfEveryField := by
  intro s
  refine ⟨_, _, exec_hwReset s, exec_ctxReset s, fun c sub => rfl, rfl, rfl, rfl, ?_⟩
  rintro v (rfl | rfl)
  · exact ⟨rfl, rfl, rfl, rfl, Memory.read_nil, rfl, rfl, Memory.read_nil, rfl, rfl, rfl, rfl⟩
  · exact ⟨rfl, rfl, rfl, rfl, Memory.read_nil, rfl, rfl, Memory.read_nil, rfl, rfl, rfl, rfl⟩

/-- Settles O47: what a reset writes does not depend on the state. -/
theorem resetsAreIdempotent : Obligations.ResetsAreIdempotent :=
  fun s => ⟨_, _, exec_ctxReset s, exec_ctxReset _, rfl, exec_hwReset s, exec_hwReset _, exec_ctxReset _⟩

/-- Settles O48: no slot of the empty registry is valid. -/
theorem hardwareResetUnregistersEveryCommand : Obligations.HardwareResetUnregistersEveryCommand := by
  intro s t hn c
  cases (exec_hwReset s).symm.trans hn
  exact unregisteredCommandIsLoggedAndDiscarded c _ rfl

/-- Settles O49: each set of strobes by evaluation. -/
theorem coincidingStrobesAreOrdered : Obligations.CoincidingStrobesAreOrdered :=
  ⟨fun _ _ _ => rfl, fun _ _ => ⟨rfl, rfl, rfl, rfl, rfl, rfl, rfl, rfl⟩⟩

end Sys2Proof.Machine
end

section
/-! A frame in progress: the context after a command and the payload bytes so far, step by step (42_framer.md R112 to
R118, section 7). -/

namespace Sys2Proof.Machine

open Sys2Proof

/-! A buffer filled from index 0. -/

theorem Memory.writeBytes_snoc (m : Memory) (a : Nat) (xs : List Byte) (b : Byte) :
    m.writeBytes a (xs ++ [b]) = (m.writeBytes a xs).write (a + xs.length) b := by
  induction xs generalizing m a with
  | nil => rfl
  | cons x xs ih =>
    rw [List.cons_append, Memory.writeBytes, ih, Memory.writeBytes, List.length_cons, Nat.add_assoc, Nat.add_comm 1]

theorem Memory.wf_nil : Memory.wf [] := ⟨List.Pairwise.nil, fun _ h => nomatch h⟩

/-- The bytes written, then 0x00 (R29, R32). -/
theorem Memory.bytes_writeBytes_nil {xs : List Byte} {n : Nat} (hn : xs.length ≤ n) :
    (Memory.writeBytes [] 0 xs).bytes n = xs ++ List.replicate (n - xs.length) 0x00 := by
  have hlisted : ∀ e ∈ Memory.writeBytes [] 0 xs, e.1 < xs.length := fun e he => by
    rcases Memory.mem_writeBytes he with he | ⟨-, hlt⟩
    · cases he
    · rwa [Nat.zero_add] at hlt
  have hxs : (Memory.writeBytes [] 0 xs).bytes xs.length = xs := by
    refine List.ext_getElem (Memory.length_bytes _ _) fun i _ hi => ?_
    have hread := Memory.read_writeBytes Memory.wf_nil 0 xs i hi
    rw [Nat.zero_add] at hread
    simpa [Memory.bytes] using hread
  rw [Memory.bytes_eq_append_replicate hlisted hn, hxs]

/-- The context of a frame for command `c` with `sub` and `d` latched and the payload `xs` received: it waits for its
checksum once a bound definition's length is met (R116). -/
def framing (c : Nat) (sub : Option Byte) (d : Definition) (xs : List Byte) : Context where
  state := if d.hasSub = false ∧ xs.length = d.expLen.toNat then .expectingChecksum else .receivingData
  curCmd := some c
  curSub := sub
  defn := d
  rxBuf := Memory.writeBytes [] 0 xs
  rxIdx := xs.length
  chk := checksum xs
  txBuf := []

section
variable {c : Nat} {sub : Option Byte} {d : Definition} {xs : List Byte}

theorem framing_state_of_met (h : d.hasSub = false ∧ xs.length = d.expLen.toNat) :
    (framing c sub d xs).state = .expectingChecksum := if_pos h

theorem framing_state_of_open (h : ¬(d.hasSub = false ∧ xs.length = d.expLen.toNat)) :
    (framing c sub d xs).state = .receivingData := if_neg h

theorem framing_payload : (framing c sub d xs).payload = xs :=
  (Memory.bytes_writeBytes_nil (Nat.le_refl xs.length)).trans (by simp)

end

/-- The state with the events before `rest` taken and another context: what each step of a frame leads to. -/
def State.advanced (s : State) (rest : List InputEvent) (c : Context) : State := { s with inputs := rest, ctx := c }

section
variable (s : State) (rest : List InputEvent) (c : Context)

@[simp] theorem State.advanced_cfg : (s.advanced rest c).cfg = s.cfg := rfl
@[simp] theorem State.advanced_reg : (s.advanced rest c).reg = s.reg := rfl
@[simp] theorem State.advanced_ctx : (s.advanced rest c).ctx = c := rfl
@[simp] theorem State.advanced_handlers : (s.advanced rest c).handlers = s.handlers := rfl
@[simp] theorem State.advanced_inputs : (s.advanced rest c).inputs = rest := rfl
@[simp] theorem State.advanced_trace : (s.advanced rest c).trace = s.trace := rfl
@[simp] theorem State.advanced_advanced (rest' : List InputEvent) (c' : Context) :
    (s.advanced rest c).advanced rest' c' = s.advanced rest' c' := rfl

end

theorem State.advanced_self {s : State} {rest : List InputEvent} {c : Context} (hin : s.inputs = rest)
    (hctx : s.ctx = c) : s.advanced rest c = s := by
  rw [← hin, ← hctx]; rfl

/-- `Complete()` replaces the context. -/
theorem complete_eq_withCtx (s : State) : complete s = s.withCtx (complete s).ctx := by
  rw [complete_eq]; rfl

/-! The words of a frame as events (30_encoding.md R86). -/

section
variable {s : State} {rest : List InputEvent} {c : Context} {b : Byte}

theorem step_addressEvent {cmd : Nat} (hl : s.cfg.Legal) (hc : cmd < s.cfg.nCmd)
    (hin : s.inputs = addressEvent s.cfg cmd :: rest) : step s = execAddrCmd cmd (s.advanced rest s.ctx) := by
  rw [step_of_cons hin, addressEvent, instrOfInput, wordOfCarrier_toNat, decode_addressed hl _ hc]
  rfl

theorem step_dataEvent_of_receivingData (hctx : s.ctx = c) (hst : c.state = .receivingData)
    (hin : s.inputs = dataEvent b :: rest) : step s = execData b (s.advanced rest c) := by
  subst hctx
  rw [step_of_cons hin, dataEvent, instrOfInput, wordOfCarrier_toNat, hst, decode_data]
  rfl

theorem step_dataEvent_of_expectingChecksum (hctx : s.ctx = c) (hst : c.state = .expectingChecksum)
    (hin : s.inputs = dataEvent b :: rest) : step s = execChk b (s.advanced rest c) := by
  subst hctx
  rw [step_of_cons hin, dataEvent, instrOfInput, wordOfCarrier_toNat, hst, decode_chk]
  rfl

end

/-! One step of a frame in progress. -/

section
variable {s : State} {rest : List InputEvent} {c : Nat} {sub : Option Byte} {d : Definition} {xs : List Byte} {b : Byte}

theorem complete_latchCommand_framing (hv : d.valid = true) :
    complete (latchCommand c d (contextReset s)) = s.withCtx (framing c none d []) := by
  have hctx : (complete (latchCommand c d (contextReset s))).ctx = framing c none d [] := by
    simp only [complete_ctx, Context.completes_iff, latchCommand_ctx, hv, true_and]
    rfl
  rw [complete_eq_withCtx, hctx]
  rfl

theorem complete_storePayload_framing (hctx : s.ctx = framing c sub d xs) (hv : d.valid = true)
    (hopen : ¬(d.hasSub = false ∧ xs.length = d.expLen.toNat)) :
    complete (storePayload b s) = s.withCtx (framing c sub d (xs ++ [b])) := by
  have hnew : (complete (storePayload b s)).ctx = framing c sub d (xs ++ [b]) := by
    simp only [complete_ctx, Context.completes_iff, storePayload_ctx, hctx, framing_state_of_open hopen]
    simp [framing, hv, Memory.writeBytes_snoc, checksum_snoc]
  rw [complete_eq_withCtx, hnew]
  rfl

theorem complete_latchSubcommand_framing {d' : Definition} (hctx : s.ctx = framing c sub d xs) (hsub : d.hasSub = true)
    (hv : d'.valid = true) :
    complete (latchSubcommand b d' (storePayload b s)) = s.withCtx (framing c (some b) d' (xs ++ [b])) := by
  have hst : (framing c sub d xs).state = .receivingData := framing_state_of_open (by simp [hsub])
  have hnew : (complete (latchSubcommand b d' (storePayload b s))).ctx = framing c (some b) d' (xs ++ [b]) := by
    simp only [complete_ctx, Context.completes_iff, latchSubcommand_ctx, storePayload_ctx, hctx, hst]
    simp [framing, hv, Memory.writeBytes_snoc, checksum_snoc]
  rw [complete_eq_withCtx, hnew]
  rfl

theorem step_address_framing (hl : s.cfg.Legal) (hc : c < s.cfg.nCmd) (hv : (s.reg.slot c none).valid = true)
    (hin : s.inputs = addressEvent s.cfg c :: rest) :
    step s = .next (s.advanced rest (framing c none (s.reg.slot c none) [])) := by
  rw [step_addressEvent hl hc hin, execAddrCmd_of_valid (by exact hv), complete_latchCommand_framing (by exact hv)]
  rfl

/-- A payload byte that is no selector is the next byte of the frame. -/
theorem step_data_framing (hctx : s.ctx = framing c sub d xs) (hin : s.inputs = dataEvent b :: rest)
    (hv : d.valid = true) (hopen : ¬(d.hasSub = false ∧ xs.length = d.expLen.toNat)) (hcap : xs.length < s.cfg.rxCap)
    (hsel : ¬(xs.length = 1 ∧ d.hasSub = true)) :
    step s = .next (s.advanced rest (framing c sub d (xs ++ [b]))) := by
  rw [step_dataEvent_of_receivingData hctx (framing_state_of_open hopen) hin,
    execData_of_plain (by exact hcap) (by exact hsel), complete_storePayload_framing rfl hv hopen]
  rfl

/-- The selector latches the subcommand's definition, which the frame is then measured by. -/
theorem step_selector_framing (hctx : s.ctx = framing c sub d xs) (hin : s.inputs = dataEvent b :: rest)
    (hone : xs.length = 1) (hsub : d.hasSub = true) (hcap : 1 < s.cfg.rxCap) (hb : b.toNat < s.cfg.nSub)
    (hv : (s.reg.slot c (some b)).valid = true) :
    step s = .next (s.advanced rest (framing c (some b) (s.reg.slot c (some b)) (xs ++ [b]))) := by
  rw [step_dataEvent_of_receivingData hctx (framing_state_of_open (by simp [hsub])) hin,
    execData_of_selector (hone.trans_lt hcap) ⟨hone, hsub⟩, resolveSubcommand_of_found rfl (by exact hb) (by exact hv),
    complete_latchSubcommand_framing rfl hsub (by exact hv)]
  rfl

/-- The right checksum byte of a frame whose length is met: the handler is called with the payload, and answered. -/
theorem step_right_checksum_framing {h : Nat} {r : HandlerResult} (hl : s.cfg.Legal)
    (hctx : s.ctx = framing c sub d xs) (hin : s.inputs = dataEvent (checksum xs) :: rest)
    (hmet : d.hasSub = false ∧ xs.length = d.expLen.toNat) (hcap : xs.length ≤ s.cfg.rxCap)
    (hcodes : d.cmd = c ∧ d.sub = sub) (hh : d.handler = some h)
    (hreply : handlerReply s.handlers
      ⟨h, c, sub, xs ++ List.replicate (s.cfg.rxCap - xs.length) 0x00, xs.length⟩ = .returns r)
    (hr : r.count ≤ s.cfg.txCap) :
    ∃ t, step s = .next t ∧ t.ctx.state = .waitingAck ∧ t.inputs = rest ∧
      t.trace = s.trace ++ .call ⟨h, c, sub, xs ++ List.replicate (s.cfg.rxCap - xs.length) 0x00, xs.length⟩ ::
        responseEvents s.cfg (outByte r) r.count := by
  obtain ⟨rfl, rfl⟩ := hcodes
  have hcall : handlerCall (s.advanced rest (framing d.cmd d.sub d xs)) h d.cmd =
      ⟨h, d.cmd, d.sub, xs ++ List.replicate (s.cfg.rxCap - xs.length) 0x00, xs.length⟩ := by
    rw [← Memory.bytes_writeBytes_nil hcap]; rfl
  have hexec : execChk (checksum xs) (s.advanced rest (framing d.cmd d.sub d xs)) = .next _ :=
    execChk_of_fits (s := s.advanced rest (framing d.cmd d.sub d xs)) rfl rfl hh (hcall ▸ hreply) hr
  have hstep := step_dataEvent_of_expectingChecksum hctx (framing_state_of_met hmet) hin
  refine ⟨_, hstep.trans hexec, rfl, rfl, ?_⟩
  rw [← hcall]
  exact answered_trace (s := (s.advanced rest (framing d.cmd d.sub d xs)).withPhase .waitingAck) hl Memory.wf_nil hr

/-- Any other checksum byte: the frame is logged with its payload and dropped (R118, D13). -/
theorem step_wrong_checksum_framing {k : Byte} (hctx : s.ctx = framing c sub d xs)
    (hin : s.inputs = dataEvent k :: rest) (hmet : d.hasSub = false ∧ xs.length = d.expLen.toNat)
    (hne : k ≠ checksum xs) :
    ∃ t, step s = .next t ∧ t.ctx = Context.init ∧ t.inputs = rest ∧
      t.trace = s.trace ++ [.log (.checksumMismatch (some c) sub xs k (checksum xs))] ++
        (if s.cfg.chkFailPolicy = .nack then [.tx (1#1 ++ s.cfg.nackCode)] else []) := by
  have hstep := step_dataEvent_of_expectingChecksum hctx (framing_state_of_met hmet) hin
  rw [execChk_of_ne (by exact hne)] at hstep
  refine ⟨_, hstep, rfl, rfl, ?_⟩
  simp only [State.advanced_ctx, framing_payload, raise_trace, raiseWords, LogEntry.kind, true_and]
  rfl

end

/-! Runs. -/

section
variable {s t : State} {rest : List InputEvent} {c : Nat} {sub : Option Byte} {d : Definition} {k : Nat}

theorem core_run_one (h : step s = .next t) : Host.Core.run core 1 s = .next t := core_run_succ h

/-- The payload bytes a bound definition still asks for, one step each. -/
theorem run_data_framing {xs ys : List Byte} (hctx : s.ctx = framing c sub d xs)
    (hin : s.inputs = ys.map dataEvent ++ rest) (hv : d.valid = true) (hsub : d.hasSub = false)
    (hlen : d.expLen.toNat = xs.length + ys.length) (hcap : xs.length + ys.length ≤ s.cfg.rxCap) :
    Host.Core.run core (ys.length + k) s =
      Host.Core.run core k (s.advanced rest (framing c sub d (xs ++ ys))) := by
  induction ys generalizing xs s with
  | nil =>
    have hs : s.advanced rest (framing c sub d xs) = s := State.advanced_self hin hctx
    rw [List.append_nil, hs, List.length_nil, Nat.zero_add]
  | cons y ys ih =>
    have hshift : xs.length + (y :: ys).length = (xs ++ [y]).length + ys.length := by simp; omega
    rw [hshift] at hlen hcap
    have hlt : xs.length < (xs ++ [y]).length := by simp
    have hopen : ¬(d.hasSub = false ∧ xs.length = d.expLen.toNat) := fun h => by omega
    have hstep := step_data_framing hctx hin hv hopen (by omega) (by simp [hsub])
    calc Host.Core.run core ((y :: ys).length + k) s
      _ = Host.Core.run core (ys.length + k + 1) s := by rw [List.length_cons, Nat.add_right_comm]
      _ = Host.Core.run core (ys.length + k) _ := core_run_succ hstep
      _ = Host.Core.run core k (s.advanced rest (framing c sub d (xs ++ [y] ++ ys))) := ih rfl rfl hlen hcap
      _ = Host.Core.run core k (s.advanced rest (framing c sub d (xs ++ y :: ys))) := by
        rw [List.append_assoc, List.singleton_append]

/-- A frame of a plain command up to its checksum word. -/
theorem run_plain_frame {payload : List Byte} {chk : Byte} (hl : s.cfg.Legal) (hc : c < s.cfg.nCmd)
    (hv : (s.reg.slot c none).valid = true) (hsub : (s.reg.slot c none).hasSub = false)
    (hlen : (s.reg.slot c none).expLen.toNat = payload.length) (hcap : payload.length ≤ s.cfg.rxCap)
    (hin : s.inputs = frameEvents s.cfg c payload chk ++ rest) :
    Host.Core.run core (payload.length + 2) s = Host.Core.run core 1
      (s.advanced (dataEvent chk :: rest) (framing c none (s.reg.slot c none) payload)) := by
  have hin' : s.inputs = addressEvent s.cfg c :: (payload.map dataEvent ++ dataEvent chk :: rest) := by
    rw [hin]; simp [frameEvents]
  exact (core_run_succ (step_address_framing hl hc hv hin')).trans
    (run_data_framing (xs := []) rfl rfl hv hsub (by simpa using hlen) (by simpa using hcap))

/-- A frame of a command with subcommands up to its checksum word: the second byte decides how many more there are. -/
theorem run_subcommand_frame {p0 sel : Byte} {tail : List Byte} {chk : Byte} (hl : s.cfg.Legal) (hc : c < s.cfg.nCmd)
    (hv : (s.reg.slot c none).valid = true) (hhas : (s.reg.slot c none).hasSub = true) (hsel : sel.toNat < s.cfg.nSub)
    (hv' : (s.reg.slot c (some sel)).valid = true) (hsub : (s.reg.slot c (some sel)).hasSub = false)
    (hlen : (s.reg.slot c (some sel)).expLen.toNat = tail.length + 2) (hcap : tail.length + 2 ≤ s.cfg.rxCap)
    (hin : s.inputs = frameEvents s.cfg c (p0 :: sel :: tail) chk ++ rest) :
    Host.Core.run core (tail.length + 4) s = Host.Core.run core 1
      (s.advanced (dataEvent chk :: rest) (framing c (some sel) (s.reg.slot c (some sel)) (p0 :: sel :: tail))) := by
  have hin' : s.inputs = addressEvent s.cfg c :: dataEvent p0 :: dataEvent sel ::
      (tail.map dataEvent ++ dataEvent chk :: rest) := by
    rw [hin]; simp [frameEvents]
  have hopen : ¬((s.reg.slot c none).hasSub = false ∧ ([] : List Byte).length = (s.reg.slot c none).expLen.toNat) := by
    simp [hhas]
  have hpos : 1 < s.cfg.rxCap := by omega
  calc Host.Core.run core (tail.length + 4) s
    _ = Host.Core.run core (tail.length + 3) _ := core_run_succ (step_address_framing hl hc hv hin')
    _ = Host.Core.run core (tail.length + 2) _ :=
      core_run_succ (step_data_framing rfl rfl hv hopen (Nat.zero_lt_of_lt hpos) (by simp))
    _ = Host.Core.run core (tail.length + 1) _ := core_run_succ (step_selector_framing rfl rfl rfl hhas hpos hsel hv')
    _ = _ := run_data_framing (xs := [p0, sel]) rfl rfl hv' hsub (hlen.trans (Nat.add_comm _ _))
      ((Nat.add_comm _ _).trans_le hcap)

end

/-- A frame's sum as the statements write it. -/
theorem toNat_ne_sum_iff {k : Byte} {payload : List Byte} :
    k.toNat ≠ (payload.map BitVec.toNat).sum % 256 ↔ k ≠ checksum payload := by
  rw [← toNat_checksum, ne_eq, ne_eq, BitVec.toNat_inj]

/-- A registered slot inside the table holds its own codes (41_registry.md R105). -/
theorem RegInv.slot_codes {cfg : Config} {r : Registry} (h : RegInv cfg r) {c : Nat} {sub : Option Byte}
    (hsub : ∀ b ∈ sub, b.toNat < cfg.nSub) (hv : (r.slot c sub).valid = true) :
    (r.slot c sub).cmd = c ∧ (r.slot c sub).sub = sub := by
  obtain ⟨-, hc, hs, -⟩ := h.of_lookup (Registry.lookup_of_valid hsub hv)
  exact ⟨hc, hs⟩

/-- Settles O56: the frame's words run up to the checksum word, which dispatches. -/
theorem completeFrameReachesItsHandlerExactlyOnce : Obligations.CompleteFrameReachesItsHandlerExactlyOnce := by
  intro s c h payload rest r hi hc hv hsub hlen hh hcap hin hreply hr
  obtain ⟨hl, hreg, -⟩ := hi
  have hcodes := hreg.slot_codes (fun b hb => absurd hb (Option.not_mem_none b)) hv
  obtain ⟨t, hstep, hrest⟩ := step_right_checksum_framing
    (s := s.advanced (dataEvent (checksum payload) :: rest) (framing c none (s.reg.slot c none) payload))
    hl rfl rfl ⟨hsub, hlen.symm⟩ hcap hcodes hh hreply hr
  exact ⟨t, (run_plain_frame hl hc hv hsub hlen hcap hin).trans (core_run_one hstep), hrest⟩

/-- Settles O57: the frame's words run up to the checksum word, which raises. -/
theorem frameWithAWrongSumCallsNoHandler : Obligations.FrameWithAWrongSumCallsNoHandler := by
  intro s c payload k rest hi hc hv hsub hlen hcap hne hin
  obtain ⟨hl, -⟩ := hi
  obtain ⟨t, hstep, hrest⟩ := step_wrong_checksum_framing
    (s := s.advanced (dataEvent k :: rest) (framing c none (s.reg.slot c none) payload))
    rfl rfl ⟨hsub, hlen.symm⟩ (toNat_ne_sum_iff.mp hne)
  exact ⟨t, (run_plain_frame hl hc hv hsub hlen hcap hin).trans (core_run_one hstep), hrest⟩

/-- Settles O58: the registry invariant makes the subcommand's definition a bound one. -/
theorem subcommandFrameTakesTheSubcommandsLength : Obligations.SubcommandFrameTakesTheSubcommandsLength := by
  intro s c h p0 sel tail rest r hi hc hv hhas hsel hv' hlen hh hcap hin hreply hr
  obtain ⟨hl, hreg, -⟩ := hi
  have hintable : ∀ b ∈ some sel, b.toNat < s.cfg.nSub := by rintro _ ⟨⟩; exact hsel
  obtain ⟨-, -, -, -, hbound, -⟩ := hreg.of_lookup (Registry.lookup_of_valid hintable hv')
  have hsub : (s.reg.slot c (some sel)).hasSub = false := hbound rfl
  obtain ⟨t, hstep, hrest⟩ := step_right_checksum_framing
    (s := s.advanced (dataEvent (checksum (p0 :: sel :: tail)) :: rest)
      (framing c (some sel) (s.reg.slot c (some sel)) (p0 :: sel :: tail)))
    hl rfl rfl ⟨hsub, hlen.symm⟩ hcap (hreg.slot_codes hintable hv') hh hreply hr
  exact ⟨t, (run_subcommand_frame hl hc hv hhas hsel hv' hsub hlen hcap hin).trans (core_run_one hstep), hrest⟩

end Sys2Proof.Machine
end
